-- ==== Sys2Proof/Word.lean ====
section
/-! DEFINITION. The plain words of the block: bits, bit sequences, the 32-bit word, and the two fixed sets of
names an instruction can mention (stream buffers, status registers). -/

namespace Sys2Proof

/-- A command word, a response data word or a status register (30_encoding.md R70, 10_state.md R26). Word bits are
numbered from 0 at the least significant bit. -/
abbrev Word := BitVec 32

/-- A bit, an element of GF(2): `true` is 1, addition is exclusive or, multiplication is and
(00_scope.md R7, 40_gf2_matrix_engine.md R100). -/
abbrev Bit := Bool

/-- A bit sequence, index 0 first; index 0 of a block is its most significant bit (00_scope.md R7). -/
abbrev Bits := List Bit

/-- The four stream buffers (10_state.md R21). -/
inductive BufId where
  | S0 | S1 | S2 | S3
deriving DecidableEq, Repr

/-- The ten status registers `SR0` to `SR9`, by the names of 10_state.md R26. -/
inductive SReg where
  | STATE | CAUSE | FCMD | TOTAL | PADLEN | FLIPS | RESID | ENCLEN | CAP | ID
deriving DecidableEq, Repr

/-- A sequence written as zeros and ones, as the spec prints it. -/
def bits (digits : List Nat) : Bits := digits.map (· == 1)

/-- `zeros(n)` of 00_scope.md section 6.2. -/
def zeros (n : Nat) : Bits := List.replicate n false

end Sys2Proof
end

