-- ==== Sys2Proof/Syntax.lean ====
section
/-! DEFINITION. The 19 commands of the FEC74 command set, version 1, one constructor per row of the opcode table
(30_encoding.md R79), with the operands of R78 in the assembler's order (R88). -/

namespace Sys2Proof

/-- A command with its operands. Counts, indices, lengths and dimensions are natural numbers; their ranges are
checked by `Instr.WellFormed`. -/
inductive Instr where
  /-- `CLR Sd` (R190): empty a buffer. -/
  | clr (sd : BufId)
  /-- `PUSH Sd, 0b<digits>` (R191): append 1 to 16 literal bits. -/
  | push (sd : BufId) (lit : Bits)
  /-- `MOV Sd, Sa` (R193): copy a buffer. -/
  | mov (sd sa : BufId)
  /-- `LEN Sa` (R194): report the length of a buffer. -/
  | len (sa : BufId)
  /-- `READ Sa, off, cnt` (R195): report 1 to 16 bits of a buffer. -/
  | read (sa : BufId) (off cnt : Nat)
  /-- `RDSR idx` (R197): read a status register. -/
  | rdsr (idx : SReg)
  /-- `MMUL Sd, Sa, Sb, m, n, k, p` (R104): multiply an `m` x `n` by a `k` x `p` matrix over GF(2). -/
  | mmul (sd sa sb : BufId) (m n k p : Nat)
  /-- `LDG Sd` (R115): copy the generator matrix into a buffer. -/
  | ldg (sd : BufId)
  /-- `LDHT Sd` (R116): copy the syndrome table into a buffer. -/
  | ldht (sd : BufId)
  /-- `ENCB Sd, Sa` (R122): encode one message block. -/
  | encb (sd sa : BufId)
  /-- `ENC Sd, Sa` (R124): encode a message stream. -/
  | enc (sd sa : BufId)
  /-- `DECB Sd, Sa` (R137): decode one received block. -/
  | decb (sd sa : BufId)
  /-- `DEC Sd, Sa` (R139): decode a received stream. -/
  | dec (sd sa : BufId)
  /-- `PAD Sd, Sa, multiple` (R152): pad a stream with zeros. -/
  | pad (sd sa : BufId) (multiple : Nat)
  /-- `TRUNC Sd, Sa, n` (R154): keep the first `n` bits. -/
  | trunc (sd sa : BufId) (n : Nat)
  /-- `NOISE Sd, Sa, k` (R164): invert `k` distinct drawn bits. -/
  | noise (sd sa : BufId) (k : Nat)
  /-- `FLIP Sd, Sa, idx` (R166): invert the bit at an index. -/
  | flip (sd sa : BufId) (idx : Nat)
  /-- `RUN Sd, Sa, k` (R177): run the whole pipeline. -/
  | run (sd sa : BufId) (k : Nat)
  /-- `CMP Sa, Sb` (R179): count differing positions. -/
  | cmp (sa sb : BufId)
deriving DecidableEq, Repr

end Sys2Proof
end

