-- ==== Sys2Proof/WellFormed.lean ====
section
/-! DEFINITION. Which commands exist: the legal operand ranges of 30_encoding.md R78 with the three conditions a
mask cannot express (R83, R84, R86; the last is in the type of RDSR's operand). -/

namespace Sys2Proof

/-- An unsigned 16-bit immediate (R71, R78). -/
abbrev fitsImm (v : Nat) : Prop := v < 65536

/-- A 4-bit matrix dimension (R73). -/
abbrev fitsDim (v : Nat) : Prop := v < 16

/-- A bit count of 1 to 16 (R72). -/
abbrev fitsCount (v : Nat) : Prop := 1 ≤ v ∧ v ≤ 16

/-- The command's operands are in their legal ranges: exactly the commands that have a word (R80). -/
def Instr.wellFormed : Instr → Bool
  | .clr _ => true
  | .push _ lit => decide (fitsCount lit.length)
  | .mov _ _ => true
  | .len _ => true
  | .read _ off cnt => decide (fitsImm off ∧ fitsCount cnt)
  | .rdsr _ => true
  | .mmul _ _ _ m n k p => decide (fitsDim m ∧ fitsDim n ∧ fitsDim k ∧ fitsDim p)
  | .ldg _ => true
  | .ldht _ => true
  | .encb _ _ => true
  | .enc _ _ => true
  | .decb _ _ => true
  | .dec _ _ => true
  | .pad _ _ multiple => decide (1 ≤ multiple ∧ fitsImm multiple)
  | .trunc _ _ n => decide (fitsImm n)
  | .noise _ _ k => decide (fitsImm k)
  | .flip _ _ idx => decide (fitsImm idx)
  | .run _ _ k => decide (fitsImm k)
  | .cmp _ _ => true

/-- `Instr.wellFormed` as a proposition. -/
abbrev Instr.WellFormed (i : Instr) : Prop := i.wellFormed = true

end Sys2Proof
end

