-- ==== Sys2Proof/Decode.lean ====
section
/-! DEFINITION. The decoder and the encoder of command words (30_encoding.md R70 to R86): fields and formats, the
opcode map, the reserved fields, and the packing of bit sequences into a 16-bit field (20_memory.md R51). -/

namespace Sys2Proof

/-! ## Numbers and names -/

/-- The 2-bit number of a buffer (R78). -/
def BufId.num : BufId → Nat
  | .S0 => 0
  | .S1 => 1
  | .S2 => 2
  | .S3 => 3

/-- The buffer a 2-bit number names (R78). -/
def BufId.ofNum : Nat → BufId
  | 0 => .S0
  | 1 => .S1
  | 2 => .S2
  | _ => .S3

/-- The number of a status register (10_state.md R26). -/
def SReg.num : SReg → Nat
  | .STATE => 0
  | .CAUSE => 1
  | .FCMD => 2
  | .TOTAL => 3
  | .PADLEN => 4
  | .FLIPS => 5
  | .RESID => 6
  | .ENCLEN => 7
  | .CAP => 8
  | .ID => 9

/-- The status register of a number; numbers above 9 have none (R86). -/
def SReg.ofNum? : Nat → Option SReg
  | 0 => some .STATE
  | 1 => some .CAUSE
  | 2 => some .FCMD
  | 3 => some .TOTAL
  | 4 => some .PADLEN
  | 5 => some .FLIPS
  | 6 => some .RESID
  | 7 => some .ENCLEN
  | 8 => some .CAP
  | 9 => some .ID
  | _ => none

/-! ## Bit sequences as numbers -/

/-- A sequence read as a number, index 0 most significant (00_scope.md R7). -/
def bitsVal : Bits → Nat
  | [] => 0
  | b :: q => b.toNat * 2 ^ q.length + bitsVal q

/-- The `cnt` bits of a number, most significant first: the sequence whose value it is. -/
def valBits : Nat → Nat → Bits
  | 0, _ => []
  | cnt + 1, v => (v / 2 ^ cnt % 2 == 1) :: valBits cnt v

/-- At most 16 bits packed MSB-first and left-aligned into a 16-bit field: index 0 at word bit 15, unused low bits
zero (20_memory.md R51). -/
def packLeft (q : Bits) : Nat := bitsVal q * 2 ^ (16 - q.length)

/-- The first `cnt` bits of a left-aligned 16-bit field, word bit 15 first (R78). -/
def unpackLeft (cnt imm : Nat) : Bits := valBits cnt (imm / 2 ^ (16 - cnt))

/-! ## Fields and formats -/

/-- `w[hi:lo]`, bits `hi` down to `lo` of a word as an unsigned number (00_scope.md R8, section 6.2). -/
def field (w : Word) (hi lo : Nat) : Nat := w.toNat / 2 ^ lo % 2 ^ (hi + 1 - lo)

/-- The 19 opcodes (R79). -/
inductive Op where
  | clr | push | mov | len | read | rdsr | mmul | ldg | ldht | encb | enc | decb | dec | pad | trunc | noise | flip
  | run | cmp
deriving DecidableEq, Repr

/-- The value of the `op` field (R79). -/
def Op.code : Op → Nat
  | .clr => 0x01
  | .push => 0x02
  | .mov => 0x03
  | .len => 0x04
  | .read => 0x05
  | .rdsr => 0x06
  | .mmul => 0x10
  | .ldg => 0x20
  | .ldht => 0x21
  | .encb => 0x30
  | .enc => 0x31
  | .decb => 0x40
  | .dec => 0x41
  | .pad => 0x50
  | .trunc => 0x51
  | .noise => 0x60
  | .flip => 0x61
  | .run => 0x70
  | .cmp => 0x71

/-- All opcodes, in the order of the table of R79. -/
def Op.all : List Op :=
  [.clr, .push, .mov, .len, .read, .rdsr, .mmul, .ldg, .ldht, .encb, .enc, .decb, .dec, .pad, .trunc, .noise, .flip,
   .run, .cmp]

/-- The opcode of an `op` field; 237 values have none (R81). -/
def Op.ofCode? (code : Nat) : Option Op := Op.all.find? (fun op => op.code == code)

/-- The fields a command does not use, which must be zero, as `(hi, lo)` bit positions (R82). -/
def Op.reserved : Op → List (Nat × Nat)
  | .clr | .ldg | .ldht => [(21, 20), (19, 18), (17, 16), (15, 0)]
  | .push => [(21, 20)]
  | .mov | .encb | .enc | .decb | .dec => [(19, 18), (17, 16), (15, 0)]
  | .len => [(23, 22), (19, 18), (17, 16), (15, 0)]
  | .read => [(23, 22)]
  | .rdsr => [(23, 22), (21, 20), (19, 18), (17, 16)]
  | .mmul => [(17, 16)]
  | .pad | .trunc | .noise | .flip | .run => [(19, 18), (17, 16)]
  | .cmp => [(23, 22), (17, 16), (15, 0)]

/-- Format R (R71), `z = 0`: each field is cut to its width. -/
def formatR (op : Op) (sd sa sb imm : Nat) : Word :=
  BitVec.ofNat 32 (op.code * 2 ^ 24 + sd % 4 * 2 ^ 22 + sa % 4 * 2 ^ 20 + sb % 4 * 2 ^ 18 + imm % 65536)

/-- Format L (R72), with the count in place of `cm1 = cnt - 1`. -/
def formatL (op : Op) (sd sa cnt imm : Nat) : Word :=
  BitVec.ofNat 32 (op.code * 2 ^ 24 + sd % 4 * 2 ^ 22 + sa % 4 * 2 ^ 20 + (cnt - 1) % 16 * 2 ^ 16 + imm % 65536)

/-- Format M (R73): the immediate cut into four dimension fields. -/
def formatM (op : Op) (sd sa sb m n k p : Nat) : Word :=
  formatR op sd sa sb (m % 16 * 2 ^ 12 + n % 16 * 2 ^ 8 + k % 16 * 2 ^ 4 + p % 16)

/-! ## Decoding -/

/-- Why a word is no command (R81 to R84, R86); every one of them is answered `IllegalCommand` (R214). -/
inductive Illegal where
  /-- The `op` field is none of the 19 values (R81). -/
  | unassignedOp
  /-- A field the command does not use is not zero (R82). -/
  | reservedField
  /-- A bit below a PUSH literal is not zero (R83). -/
  | pushTail
  /-- PAD with multiple 0 (R84). -/
  | padZero
  /-- RDSR of a register number above 9 (R86). -/
  | noRegister
deriving DecidableEq, Repr

/-- The operands of a word whose opcode is known and whose reserved fields are zero (R78, R83, R84, R86). -/
def Op.operands (op : Op) (w : Word) : Except Illegal Instr :=
  let sd := BufId.ofNum (field w 23 22)
  let sa := BufId.ofNum (field w 21 20)
  let sb := BufId.ofNum (field w 19 18)
  let cnt := field w 19 16 + 1
  let imm := field w 15 0
  match op with
  | .clr => .ok (.clr sd)
  | .push => if imm % 2 ^ (16 - cnt) = 0 then .ok (.push sd (unpackLeft cnt imm)) else .error .pushTail
  | .mov => .ok (.mov sd sa)
  | .len => .ok (.len sa)
  | .read => .ok (.read sa imm cnt)
  | .rdsr =>
    match SReg.ofNum? imm with
    | some r => .ok (.rdsr r)
    | none => .error .noRegister
  | .mmul => .ok (.mmul sd sa sb (field w 15 12) (field w 11 8) (field w 7 4) (field w 3 0))
  | .ldg => .ok (.ldg sd)
  | .ldht => .ok (.ldht sd)
  | .encb => .ok (.encb sd sa)
  | .enc => .ok (.enc sd sa)
  | .decb => .ok (.decb sd sa)
  | .dec => .ok (.dec sd sa)
  | .pad => if imm = 0 then .error .padZero else .ok (.pad sd sa imm)
  | .trunc => .ok (.trunc sd sa imm)
  | .noise => .ok (.noise sd sa imm)
  | .flip => .ok (.flip sd sa imm)
  | .run => .ok (.run sd sa imm)
  | .cmp => .ok (.cmp sa sb)

/-- The total, stateless decoder of R80. -/
def decode (w : Word) : Except Illegal Instr :=
  match Op.ofCode? (field w 31 24) with
  | none => .error .unassignedOp
  | some op =>
    if op.reserved.all (fun f => field w f.1 f.2 == 0) then op.operands w else .error .reservedField

/-- The decoder on a word given as the opcode table numbers its bits: every command is one 32-bit word (R70), bits at
and above `nbits` are zero. -/
def decodeTableWord (nbits w : Nat) : Option Instr :=
  match decode (BitVec.ofNat 32 (w % 2 ^ nbits)) with
  | .ok i => if nbits ≤ 32 then some i else none
  | .error _ => none

/-! ## Encoding -/

/-- The opcode of a command (R79). -/
def Instr.op : Instr → Op
  | .clr _ => .clr
  | .push _ _ => .push
  | .mov _ _ => .mov
  | .len _ => .len
  | .read _ _ _ => .read
  | .rdsr _ => .rdsr
  | .mmul _ _ _ _ _ _ _ => .mmul
  | .ldg _ => .ldg
  | .ldht _ => .ldht
  | .encb _ _ => .encb
  | .enc _ _ => .enc
  | .decb _ _ => .decb
  | .dec _ _ => .dec
  | .pad _ _ _ => .pad
  | .trunc _ _ _ => .trunc
  | .noise _ _ _ => .noise
  | .flip _ _ _ => .flip
  | .run _ _ _ => .run
  | .cmp _ _ => .cmp

/-- The one word of a well-formed command (R71 to R73, R79, R80): unused fields are zero. -/
def encode : Instr → Word
  | .clr sd => formatR .clr sd.num 0 0 0
  | .push sd lit => formatL .push sd.num 0 lit.length (packLeft lit)
  | .mov sd sa => formatR .mov sd.num sa.num 0 0
  | .len sa => formatR .len 0 sa.num 0 0
  | .read sa off cnt => formatL .read 0 sa.num cnt off
  | .rdsr idx => formatR .rdsr 0 0 0 idx.num
  | .mmul sd sa sb m n k p => formatM .mmul sd.num sa.num sb.num m n k p
  | .ldg sd => formatR .ldg sd.num 0 0 0
  | .ldht sd => formatR .ldht sd.num 0 0 0
  | .encb sd sa => formatR .encb sd.num sa.num 0 0
  | .enc sd sa => formatR .enc sd.num sa.num 0 0
  | .decb sd sa => formatR .decb sd.num sa.num 0 0
  | .dec sd sa => formatR .dec sd.num sa.num 0 0
  | .pad sd sa multiple => formatR .pad sd.num sa.num 0 multiple
  | .trunc sd sa n => formatR .trunc sd.num sa.num 0 n
  | .noise sd sa k => formatR .noise sd.num sa.num 0 k
  | .flip sd sa idx => formatR .flip sd.num sa.num 0 idx
  | .run sd sa k => formatR .run sd.num sa.num 0 k
  | .cmp sa sb => formatR .cmp 0 sa.num sb.num 0

/-! ## Every constructor decodes from a word written out from the spec

The words are the examples of files 40 to 47 and of 95_test_vectors.md. -/

theorem decode_clr : decode 0x01C00000 = .ok (.clr .S3) := by decide
theorem decode_push : decode 0x0203A000 = .ok (.push .S0 (bits [1, 0, 1, 0])) := by decide
theorem decode_mov : decode 0x03C00000 = .ok (.mov .S3 .S0) := by decide
theorem decode_len : decode 0x04100000 = .ok (.len .S1) := by decide
theorem decode_read : decode 0x05120004 = .ok (.read .S1 4 3) := by decide
theorem decode_rdsr : decode 0x06000009 = .ok (.rdsr .ID) := by decide
theorem decode_mmul : decode 0x10841447 = .ok (.mmul .S2 .S0 .S1 1 4 4 7) := by decide
theorem decode_ldg : decode 0x20400000 = .ok (.ldg .S1) := by decide
theorem decode_ldht : decode 0x21400000 = .ok (.ldht .S1) := by decide
theorem decode_encb : decode 0x30400000 = .ok (.encb .S1 .S0) := by decide
theorem decode_enc : decode 0x31400000 = .ok (.enc .S1 .S0) := by decide
theorem decode_decb : decode 0x40E00000 = .ok (.decb .S3 .S2) := by decide
theorem decode_dec : decode 0x41900000 = .ok (.dec .S2 .S1) := by decide
theorem decode_pad : decode 0x50400001 = .ok (.pad .S1 .S0 1) := by decide
theorem decode_trunc : decode 0x51E00005 = .ok (.trunc .S3 .S2 5) := by decide
theorem decode_noise : decode 0x60900005 = .ok (.noise .S2 .S1 5) := by decide
theorem decode_flip : decode 0x61900004 = .ok (.flip .S2 .S1 4) := by decide
theorem decode_run : decode 0x70C00032 = .ok (.run .S3 .S0 50) := by decide
theorem decode_cmp : decode 0x710C0000 = .ok (.cmp .S0 .S3) := by decide

end Sys2Proof
end

