-- ==== Sys2Proof/Config.lean ====
section
/-! DEFINITION. What the spec leaves to the implementation or to the environment (00_scope.md section 5): the
buffer capacity and the answers of the random source, both without a value here, and the identification word. -/

namespace Sys2Proof

/-- How far the capacity of this block lies above the least one the spec allows. It has no value: a claim holds
for every capacity. DESIGN CHOICE (the form, log entry 1). -/
opaque Config.capAbove : Fin 65487

/-- `CAP`, the capacity of each stream buffer and of each temporary, in bits: some number from 49 to 65535
(00_scope.md R6, 92_eei_decisions.md D3). -/
def Config.cap : Nat := Config.capAbove.val + 49

/-- FREE VALUE (log entry 3): what the random source offers on `rnd_idx` during the `n`-th command that asks it,
up to any finite number of answers. It has no value: any list is possible (45_noise_injector.md R163). -/
opaque Config.rndAnswers : Nat → List (BitVec 16)

/-- `ID`, the identification word (10_state.md R29). -/
def Config.id : Word := 0x07040001

end Sys2Proof
end

