-- ==== Sys2Proof/Machine/State.lean ====
section
/-! DEFINITION. Everything the spec gives the block to hold (10_state.md), the two ports it answers and asks through,
and the reset state. -/

namespace Sys2Proof.Machine

/-- The ten statuses a response can carry (60_exceptions.md R210). -/
inductive Status where
  /-- 0: the command completed. -/
  | ok
  /-- 1, recoverable: the word does not decode (R214). -/
  | illegalCommand
  /-- 2, recoverable: a length is not what the operation needs; ENC, DEC, CMP, MMUL (R215). -/
  | lengthError
  /-- 3, recoverable: the flip count exceeds the stream; NOISE, RUN (R216). -/
  | rangeError
  /-- 4, recoverable: an index or length the stream does not have; READ, TRUNC, FLIP (R218). -/
  | boundsError
  /-- 5, recoverable: a result longer than CAP; PUSH, PAD, ENC, RUN, MMUL (R217). -/
  | overflow
  /-- 8, fatal: matrix dimensions disagree; MMUL (R224). -/
  | shapeMismatch
  /-- 9, fatal: a block of the wrong length; ENCB, DECB (R225). -/
  | contractError
  /-- 10, fatal: a non-zero syndrome matches no row of the table; unreachable (R219). -/
  | invariantViolation
  /-- 15: refused because the block is halted (R213). -/
  | halted
deriving DecidableEq, Repr

/-- A response (30_encoding.md R76). -/
structure Response where
  status : Status
  data : Word
deriving DecidableEq, Repr

/-- What the host can do to the block (70_reset_and_hazards.md R246). -/
inductive HostInput where
  /-- Present a command word and have it accepted (30_encoding.md R75). -/
  | command (w : Word)
  /-- Take the pending response (30_encoding.md R75). -/
  | takeResponse
  /-- Hold `rst_n` low (R240). -/
  | reset
deriving DecidableEq, Repr

/-- The state of the block and of its ports. The fields `s0` to `rsp` are the spec's; `input`, `rndIn` and `rndCount`
are the model's own and hold what the environment will do, so that a step is a function of the state
(log entries 2 and 3). -/
structure State where
  /-- Stream buffers (10_state.md R21). -/
  s0 : Bits
  s1 : Bits
  s2 : Bits
  s3 : Bits
  /-- `SR0 STATE[0]`, HALTED (R27). -/
  halted : Bool
  /-- `SR1 CAUSE[3:0]` (R28). -/
  cause : BitVec 4
  /-- `SR2 FCMD` (R28). -/
  fcmd : Word
  /-- `SR3 TOTAL[15:0]` (R30). -/
  total : BitVec 16
  /-- `SR4 PADLEN[1:0]` (R30). -/
  padlen : BitVec 2
  /-- `SR5 FLIPS[15:0]` (R30). -/
  flips : BitVec 16
  /-- `SR6 RESID[15:0]` (R30). -/
  resid : BitVec 16
  /-- `SR7 ENCLEN[15:0]` (R30). -/
  enclen : BitVec 16
  /-- `SR8 CAP`, the capacity in bits; nothing changes it (R29, log entry 1). -/
  cap : Nat
  /-- The response port: the response given and not yet taken (30_encoding.md R74 to R76). -/
  rsp : Option Response
  /-- What the host does next, in order. -/
  input : List HostInput
  /-- Answers a reproducible random source has lined up on `rnd_idx`, next first (45_noise_injector.md R163, R165). -/
  rndIn : List (BitVec 16)
  /-- How many commands have drawn from the free source `Config.rndAnswers`. -/
  rndCount : Nat
deriving DecidableEq, Repr

/-- Reasons to stop. There is none: every fault of the spec is an answer to the host, after which the block goes on
answering (60_exceptions.md R211 to R213), so a meaning ends in a next state always (log entry 7). -/
inductive Fault where
deriving DecidableEq, Repr

/-- Reasons to have no meaning. -/
inductive Refusal where
  /-- Answered by `exec`'s arm of a command that is not modelled yet; safe. Every command has its meaning, so no arm
  answers it. -/
  | notModelled (mnemonic : String)
deriving DecidableEq, Repr

/-- What a meaning and a step answer. -/
abbrev Out := Host.Outcome State Fault Refusal

/-- The state of 10_state.md R35. The capacity is the configuration's; the model's own fields hold nothing
(DESIGN CHOICE, log entries 1 to 3). -/
def State.reset : State where
  s0 := []
  s1 := []
  s2 := []
  s3 := []
  halted := false
  cause := 0
  fcmd := 0
  total := 0
  padlen := 0
  flips := 0
  resid := 0
  enclen := 0
  cap := Config.cap
  rsp := none
  input := []
  rndIn := []
  rndCount := 0

end Sys2Proof.Machine
end

