-- ==== Sys2Proof/Machine/Flags.lean ====
section
/-! DEFINITION. The block has no flag and no condition code (10_state.md R25): what a host can branch on is the status
of a response. This file gives the statuses their codes and classes (60_exceptions.md R210). -/

namespace Sys2Proof.Machine

/-- The 4-bit code of a status (R210). -/
def Status.code : Status → BitVec 4
  | .ok => 0
  | .illegalCommand => 1
  | .lengthError => 2
  | .rangeError => 3
  | .boundsError => 4
  | .overflow => 5
  | .shapeMismatch => 8
  | .contractError => 9
  | .invariantViolation => 10
  | .halted => 15

/-- The fatal statuses, which latch HALTED (R212). -/
def Status.fatal : Status → Bool
  | .shapeMismatch | .contractError | .invariantViolation => true
  | .ok | .illegalCommand | .lengthError | .rangeError | .boundsError | .overflow | .halted => false

/-- The recoverable statuses (R211). -/
def Status.recoverable : Status → Bool
  | .illegalCommand | .lengthError | .rangeError | .boundsError | .overflow => true
  | .ok | .shapeMismatch | .contractError | .invariantViolation | .halted => false

/-- The statuses `CAUSE` and `FCMD` record: every fault but `Halted` (10_state.md R28). -/
def Status.recorded (st : Status) : Bool := st.recoverable || st.fatal

end Sys2Proof.Machine
end

