-- ==== Sys2Proof/Machine/Ops.lean ====
section
/-! DEFINITION. The named operations on the state: buffers, responses, what a fault does, the frame every command runs
in, and reset. The block has no memory (20_memory.md R53), so there is no operation on one; it has no trap entry and
no return (60_exceptions.md R222, R223): `raise` is all a fault does. -/

namespace Sys2Proof.Machine

/-! ## Buffers -/

/-- `S[b]`, the whole sequence a buffer holds (10_state.md R21). -/
def State.buf (s : State) : BufId → Bits
  | .S0 => s.s0
  | .S1 => s.s1
  | .S2 => s.s2
  | .S3 => s.s3

/-- `S[b] <- q`: the buffer then holds exactly `q` (10_state.md R23). -/
def State.setBuf (s : State) (b : BufId) (q : Bits) : State :=
  match b with
  | .S0 => { s with s0 := q }
  | .S1 => { s with s1 := q }
  | .S2 => { s with s2 := q }
  | .S3 => { s with s3 := q }

/-! ## Responses and faults -/

/-- `respond(status, data)`: exactly one response per accepted word (30_encoding.md R75, R76). -/
def respond (st : Status) (data : Word) (s : State) : State := { s with rsp := some ⟨st, data⟩ }

/-- `raise`: what a command that ends in a fault does, and nothing else (60_exceptions.md R220): CAUSE and FCMD
record it, a fatal one latches HALTED, and the response is `(status, 0)`. -/
def raise (f : Status) (w : Word) (s : State) : State :=
  respond f 0 { s with cause := f.code, fcmd := w, halted := s.halted || f.fatal }

/-- The answer of a halted block: `(Halted, 0)`, no state changed, CAUSE and FCMD kept (60_exceptions.md R213). -/
def refuseHalted (s : State) : State := respond .halted 0 s

/-- How every command but RDSR runs (60_exceptions.md R221): a halted block refuses it; otherwise its own checks and
effect are `body`, a fault or the new state with the data of an `OK` response. The word FCMD records is the
command's own (DEDUCED from R80, log entry 5). -/
def perform (i : Instr) (s : State) (body : Except Status (State × Nat)) : Out :=
  if s.halted then .next (refuseHalted s)
  else
    match body with
    | .error f => .next (raise f (encode i) s)
    | .ok (t, data) => .next (respond .ok (BitVec.ofNat 32 data) t)

/-- What the block does with a word that does not decode: `Halted` in preference to `IllegalCommand`
(30_encoding.md R81, 60_exceptions.md R213, R214, R221). -/
def illegalWord (w : Word) (s : State) : State :=
  if s.halted then refuseHalted s else raise .illegalCommand w s

/-! ## Ports -/

/-- The host takes the pending response (30_encoding.md R75). -/
def takeResponse (s : State) : State := { s with rsp := none }

/-- Reset: the state of 10_state.md R35 whatever was held before; the capacity is a constant of the design (R29) and
the environment's own inputs are not the block's to reset (R34, 70_reset_and_hazards.md R240, R242). -/
def applyReset (s : State) : State :=
  { State.reset with cap := s.cap, input := s.input, rndIn := s.rndIn, rndCount := s.rndCount }

/-- `cmd_ready`: the block can take a word when no response is pending (30_encoding.md R75). -/
def State.cmdReady (s : State) : Bool := s.rsp.isNone

/-- `rsp_valid` (30_encoding.md R74). -/
def State.rspValid (s : State) : Bool := s.rsp.isSome

/-- `rsp_status`, 4 bits, while a response is pending (30_encoding.md R74). -/
def State.rspStatus (s : State) : Option (BitVec 4) := s.rsp.map (fun r => r.status.code)

/-- `rsp_data`, 32 bits, while a response is pending (30_encoding.md R74). -/
def State.rspData (s : State) : Option Word := s.rsp.map Response.data

end Sys2Proof.Machine
end

