-- ==== Sys2Proof/Machine/Operands.lean ====
section
/-! DEFINITION. Operand forms: which buffers a command reads and writes, status register reads, and the operations on
bit sequences that several commands share (00_scope.md section 6.2). -/

namespace Sys2Proof.Machine

/-! ## Buffers named by a command (10_state.md R22) -/

end Sys2Proof.Machine

namespace Sys2Proof

/-- The buffer a command writes, if any (10_state.md R22). -/
def Instr.dest? : Instr → Option BufId
  | .clr sd => some sd
  | .push sd _ => some sd
  | .mov sd _ => some sd
  | .len _ => none
  | .read _ _ _ => none
  | .rdsr _ => none
  | .mmul sd _ _ _ _ _ _ => some sd
  | .ldg sd => some sd
  | .ldht sd => some sd
  | .encb sd _ => some sd
  | .enc sd _ => some sd
  | .decb sd _ => some sd
  | .dec sd _ => some sd
  | .pad sd _ _ => some sd
  | .trunc sd _ _ => some sd
  | .noise sd _ _ => some sd
  | .flip sd _ _ => some sd
  | .run sd _ _ => some sd
  | .cmp _ _ => none

/-- The buffers a command reads (10_state.md R22). -/
def Instr.sources : Instr → List BufId
  | .clr _ => []
  | .push sd _ => [sd]
  | .mov _ sa => [sa]
  | .len sa => [sa]
  | .read sa _ _ => [sa]
  | .rdsr _ => []
  | .mmul _ sa sb _ _ _ _ => [sa, sb]
  | .ldg _ => []
  | .ldht _ => []
  | .encb _ sa => [sa]
  | .enc _ sa => [sa]
  | .decb _ sa => [sa]
  | .dec _ sa => [sa]
  | .pad _ sa _ => [sa]
  | .trunc _ sa _ => [sa]
  | .noise _ sa _ => [sa]
  | .flip _ sa _ => [sa]
  | .run _ sa _ => [sa]
  | .cmp sa sb => [sa, sb]

end Sys2Proof

namespace Sys2Proof.Machine

/-! ## Status registers -/

/-- `SR[r]` as RDSR returns it: 32 bits, the bits above a field read as zero (10_state.md R26 to R30). -/
def State.readSr (s : State) : SReg → Word
  | .STATE => if s.halted then 1 else 0
  | .CAUSE => s.cause.setWidth 32
  | .FCMD => s.fcmd
  | .TOTAL => s.total.setWidth 32
  | .PADLEN => s.padlen.setWidth 32
  | .FLIPS => s.flips.setWidth 32
  | .RESID => s.resid.setWidth 32
  | .ENCLEN => s.enclen.setWidth 32
  | .CAP => BitVec.ofNat 32 s.cap
  | .ID => Config.id

/-! ## Sequences -/

/-- `q[a..a+cnt)`, the sub-sequence of `cnt` bits at index `a`. -/
def slice (q : Bits) (a cnt : Nat) : Bits := (q.drop a).take cnt

/-- `flip(q, F)` for the part of a sequence that starts at index `i`. -/
def flipFrom (F : List Nat) : Nat → Bits → Bits
  | _, [] => []
  | i, b :: q => (b ^^ F.contains i) :: flipFrom F (i + 1) q

/-- `flip(q, F)`: the bits at the indices in `F` inverted, the others unchanged (45_noise_injector.md R160). `F` is
read as a set. -/
def flipAt (q : Bits) (F : List Nat) : Bits := flipFrom F 0 q

/-- `dist(q, r)`, the number of indices where two sequences of one length differ. -/
def bitDist : Bits → Bits → Nat
  | a :: q, b :: r => (a ^^ b).toNat + bitDist q r
  | [], _ => 0
  | _, [] => 0

/-- The bits READ returns, packed MSB-first from `data[15]` down (30_encoding.md R77, 20_memory.md R51). -/
def readData (q : Bits) (off cnt : Nat) : Nat := packLeft (slice q off cnt)

end Sys2Proof.Machine
end

