-- ==== Sys2Proof/Machine/HostAccess.lean ====
section
/-! DEFINITION. Host access: CLR, PUSH, MOV, LEN, READ, RDSR (47_host_access_commands.md). -/

namespace Sys2Proof.Machine

/-- `CLR Sd` (R190). -/
def execClr (sd : BufId) (s : State) : Out := perform (.clr sd) s (.ok (s.setBuf sd [], 0))

/-- `PUSH Sd, 0b<digits>` (R191): the old content, then the literal. -/
def execPush (sd : BufId) (lit : Bits) (s : State) : Out :=
  perform (.push sd lit) s <|
    if (s.buf sd).length + lit.length > s.cap then .error .overflow
    else .ok (s.setBuf sd (s.buf sd ++ lit), (s.buf sd).length + lit.length)

/-- `MOV Sd, Sa` (R193). -/
def execMov (sd sa : BufId) (s : State) : Out :=
  perform (.mov sd sa) s (.ok (s.setBuf sd (s.buf sa), (s.buf sa).length))

/-- `LEN Sa` (R194). -/
def execLen (sa : BufId) (s : State) : Out := perform (.len sa) s (.ok (s, (s.buf sa).length))

/-- `READ Sa, off, cnt` (R195): `off + cnt` is a natural number, not reduced. -/
def execRead (sa : BufId) (off cnt : Nat) (s : State) : Out :=
  perform (.read sa off cnt) s <|
    if off + cnt > (s.buf sa).length then .error .boundsError
    else .ok (s, readData (s.buf sa) off cnt)

/-- `RDSR idx` (R197): the only command that executes in the halted state. -/
def execRdsr (idx : SReg) (s : State) : Out := .next (respond .ok (s.readSr idx) s)

end Sys2Proof.Machine
end

