-- ==== Sys2Proof/Machine/MatrixEngine.lean ====
section
/-! DEFINITION. The GF(2) matrix engine and MMUL (40_gf2_matrix_engine.md). -/

namespace Sys2Proof.Machine

/-- A matrix over GF(2): its shape and its entries in row-major order (R105). -/
structure BitMatrix where
  rows : Nat
  cols : Nat
  entries : Bits
deriving DecidableEq, Repr

/-- `M[i][j]`, at sequence index `i*c + j` (R105). -/
def BitMatrix.entry (M : BitMatrix) (i j : Nat) : Bit := M.entries.getD (i * M.cols + j) false

/-- The sum of bits in GF(2); the sum of no bits is 0 (R100). -/
def gf2Sum (q : Bits) : Bit := q.foldr (· ^^ ·) false

/-- One entry of the product: the sum of the pairwise products of row `i` of `A` and column `j` of `B` (R101). -/
def gf2Dot (A B : BitMatrix) (i j : Nat) : Bit :=
  gf2Sum ((List.range A.cols).map fun t => A.entry i t && B.entry t j)

/-- The product of two matrices whose inner dimensions agree (R101), row-major. -/
def gf2Product (A B : BitMatrix) : BitMatrix where
  rows := A.rows
  cols := B.cols
  entries := (List.range A.rows).flatMap fun i => (List.range B.cols).map fun j => gf2Dot A B i j

/-- `gf2_mul(A, B)`: `none` is ShapeMismatch (R102). -/
def gf2Mul (A B : BitMatrix) : Option BitMatrix := if A.cols = B.rows then some (gf2Product A B) else none

/-- `MMUL Sd, Sa, Sb, m, n, k, p` (R104): the shapes are checked before any buffer is looked at, then the lengths,
then the capacity. -/
def execMmul (sd sa sb : BufId) (m n k p : Nat) (s : State) : Out :=
  perform (.mmul sd sa sb m n k p) s <|
    match gf2Mul ⟨m, n, s.buf sa⟩ ⟨k, p, s.buf sb⟩ with
    | none => .error .shapeMismatch
    | some C =>
      if (s.buf sa).length ≠ m * n ∨ (s.buf sb).length ≠ k * p then .error .lengthError
      else if m * p > s.cap then .error .overflow
      else .ok (s.setBuf sd C.entries, m * p)

end Sys2Proof.Machine
end

