-- ==== Sys2Proof/Machine/CodeTables.lean ====
section
/-! DEFINITION. The code tables and LDG, LDHT (41_code_tables.md). The tables are constants, not state
(10_state.md R32). -/

namespace Sys2Proof.Machine

/-- The generator matrix G, 4 x 7, row-major (R111). -/
def codeG : BitMatrix where
  rows := 4
  cols := 7
  entries := bits
    [1, 0, 0, 0, 1, 1, 1,
     0, 1, 0, 0, 0, 1, 1,
     0, 0, 1, 0, 1, 0, 1,
     0, 0, 0, 1, 1, 1, 0]

/-- The syndrome table HT, 7 x 3, row-major; the row index is the flip position (R112). -/
def codeHT : BitMatrix where
  rows := 7
  cols := 3
  entries := bits
    [1, 1, 1,
     0, 1, 1,
     1, 0, 1,
     1, 1, 0,
     1, 0, 0,
     0, 1, 0,
     0, 0, 1]

/-- Row `i` of HT (R112). -/
def htRow (i : Nat) : Bits := slice codeHT.entries (i * 3) 3

/-- `pos(s)`, as the scan for the row of HT equal to the syndrome (R114); `none` when no row matches. -/
def errorPosition (syn : Bits) : Option Nat := (List.range 7).find? (fun i => htRow i == syn)

/-- `LDG Sd` (R115). -/
def execLdg (sd : BufId) (s : State) : Out :=
  perform (.ldg sd) s <|
    if 28 > s.cap then .error .overflow else .ok (s.setBuf sd codeG.entries, 28)

/-- `LDHT Sd` (R116). -/
def execLdht (sd : BufId) (s : State) : Out :=
  perform (.ldht sd) s <|
    if 21 > s.cap then .error .overflow else .ok (s.setBuf sd codeHT.entries, 21)

end Sys2Proof.Machine
end

