-- ==== Sys2Proof/Machine/Framing.lean ====
section
/-! DEFINITION. Padding and framing: PAD, TRUNC (44_padding_framing.md). -/

namespace Sys2Proof.Machine

/-- `padcount(L, n)`, the zeros that bring a length to a multiple of `n`, for `n >= 1` (R150). -/
def padCount (len n : Nat) : Nat := (n - len % n) % n

/-- `pad(q, n)` (R150). -/
def padTo (q : Bits) (n : Nat) : Bits := q ++ zeros (padCount q.length n)

/-- `PAD Sd, Sa, multiple` (R152): responds the pad count. A multiple of 0 has no legal word (30_encoding.md R84);
as a term it is answered as that word is. -/
def execPad (sd sa : BufId) (multiple : Nat) (s : State) : Out :=
  perform (.pad sd sa multiple) s <|
    let q := s.buf sa
    let c := padCount q.length multiple
    if multiple = 0 then .error .illegalCommand
    else if q.length + c > s.cap then .error .overflow
    else .ok (s.setBuf sd (padTo q multiple), c)

/-- `TRUNC Sd, Sa, n` (R154). -/
def execTrunc (sd sa : BufId) (n : Nat) (s : State) : Out :=
  perform (.trunc sd sa n) s <|
    if n > (s.buf sa).length then .error .boundsError
    else .ok (s.setBuf sd ((s.buf sa).take n), n)

end Sys2Proof.Machine
end

