-- ==== Sys2Proof/Machine/BlockEncoder.lean ====
section
/-! DEFINITION. The block encoder: ENCB, ENC (42_block_encoder.md). -/

namespace Sys2Proof.Machine

/-- `encode_block(m)`, the product of the 1 x 4 message and G, for a 4-bit message (R120). -/
def encodeBlock (m : Bits) : Bits := (gf2Product ⟨1, 4, m⟩ codeG).entries

/-- The codewords of consecutive 4-bit blocks in order (R123); the commands call it on whole blocks only. -/
def encodeBlocks : Bits → Bits
  | m0 :: m1 :: m2 :: m3 :: q => encodeBlock [m0, m1, m2, m3] ++ encodeBlocks q
  | _ => []

/-- `encode(q)` for a stream of a multiple of 4 bits: the encoder pads to a multiple of 28 itself (R123). -/
def encodeStream (q : Bits) : Bits := encodeBlocks (padTo q 28)

/-- The length of `encode` of a stream of `len` bits, `7 * L28 / 4` (R123, 44_padding_framing.md R151). -/
def encodedLength (len : Nat) : Nat := 7 * (len + padCount len 28) / 4

/-- `ENCB Sd, Sa` (R122). -/
def execEncb (sd sa : BufId) (s : State) : Out :=
  perform (.encb sd sa) s <|
    if (s.buf sa).length ≠ 4 then .error .contractError
    else .ok (s.setBuf sd (encodeBlock (s.buf sa)), 7)

/-- `ENC Sd, Sa` (R124): the length check on the caller's stream, then the capacity. -/
def execEnc (sd sa : BufId) (s : State) : Out :=
  perform (.enc sd sa) s <|
    let q := s.buf sa
    if q.length % 4 ≠ 0 then .error .lengthError
    else if encodedLength q.length > s.cap then .error .overflow
    else .ok (s.setBuf sd (encodeStream q), encodedLength q.length)

end Sys2Proof.Machine
end

