-- ==== Sys2Proof/Machine/NoiseInjector.lean ====
section
/-! DEFINITION. The bit-flip noise injector: the draw, NOISE, FLIP (45_noise_injector.md). -/

namespace Sys2Proof.Machine

/-! ## The random-index port (30_encoding.md R74, R165) -/

/-- `rnd_req`: the injector asks for an index while its exclusion set holds fewer than the `k` wanted (R165). Outside
NOISE and RUN nothing asks (10_state.md R35). -/
def rndReq (k : Nat) (X : List Nat) : Bool := decide (X.length < k)

/-- `rnd_bound`, 16 bits: the length of the stream being corrupted, in every request of a command (R165). -/
def rndBound (bound : Nat) : BitVec 16 := BitVec.ofNat 16 bound

/-- One request that was answered: `rnd_bound` and `rnd_idx` while `rnd_req` and `rnd_valid` are 1. -/
structure RndExchange where
  bound : BitVec 16
  idx : BitVec 16
deriving DecidableEq, Repr

/-- What an answer does to the exclusion set: in range and not yet chosen it is accepted, else it is rejected (R165). -/
def acceptIndex (bound : Nat) (X : List Nat) (v : Nat) : List Nat := if v < bound ∧ v ∉ X then X ++ [v] else X

/-- The loop of R165 over the answers a random source offers, for a stream of `bound` bits, a count `k` and the
exclusion set so far: it takes an answer for each request, and stops when it no longer asks. It gives the indices
accepted and the answers not asked for. -/
def selectLoop (bound k : Nat) : List Nat → List Nat → List Nat × List Nat
  | X, [] => (X, [])
  | X, v :: vs => if rndReq k X then selectLoop bound k (acceptIndex bound X v) vs else (X, v :: vs)

/-- What that loop shows on the port: its requests with their answers, in order. -/
def loopExchanges (bound k : Nat) : List Nat → List Nat → List RndExchange
  | _, [] => []
  | X, v :: vs =>
    if rndReq k X then
      { bound := rndBound bound, idx := BitVec.ofNat 16 v } :: loopExchanges bound k (acceptIndex bound X v) vs
    else []

/-! ## The draw -/

/-- What the loop takes from the injected source's answers. -/
def State.injectedDraw (s : State) (bound k : Nat) : List Nat × List Nat :=
  selectLoop bound k [] (s.rndIn.map BitVec.toNat)

/-- The answers of the free source to one command: any finite list, after which a fair source goes on to offer every
index in range (R168, log entries 3 and 4). -/
def State.freeAnswers (s : State) (bound : Nat) : List Nat :=
  (Config.rndAnswers s.rndCount).map BitVec.toNat ++ List.range bound

/-- `draw F`: the flip set of one NOISE or RUN on a stream of `bound` bits, `k <= bound` (R163, R165): the injected
answers first, the free source's for what is still wanted. A list without repeats that stands for a set. -/
def State.drawSet (s : State) (bound k : Nat) : List Nat :=
  if rndReq k (s.injectedDraw bound k).1 then
    (selectLoop bound k (s.injectedDraw bound k).1 (s.freeAnswers bound)).1
  else (s.injectedDraw bound k).1

/-- What the draw of one NOISE or RUN shows on the random-index port. -/
def State.drawExchanges (s : State) (bound k : Nat) : List RndExchange :=
  loopExchanges bound k [] (s.rndIn.map BitVec.toNat) ++
    if rndReq k (s.injectedDraw bound k).1 then
      loopExchanges bound k (s.injectedDraw bound k).1 (s.freeAnswers bound)
    else []

/-- The environment after the draw: the answers taken are gone, and a use of the free source is counted. The block
keeps nothing of it (10_state.md R34). -/
def State.afterDraw (s : State) (bound k : Nat) : State :=
  { s with
    rndIn := s.rndIn.drop (s.rndIn.length - (s.injectedDraw bound k).2.length)
    rndCount := if rndReq k (s.injectedDraw bound k).1 then s.rndCount + 1 else s.rndCount }

/-! ## The commands -/

/-- `NOISE Sd, Sa, k` (R164): the range check is made before any index is asked for (R162). -/
def execNoise (sd sa : BufId) (k : Nat) (s : State) : Out :=
  perform (.noise sd sa k) s <|
    let q := s.buf sa
    if k > q.length then .error .rangeError
    else .ok ((s.afterDraw q.length k).setBuf sd (flipAt q (s.drawSet q.length k)), q.length)

/-- `FLIP Sd, Sa, idx` (R166). -/
def execFlip (sd sa : BufId) (idx : Nat) (s : State) : Out :=
  perform (.flip sd sa idx) s <|
    let q := s.buf sa
    if idx ≥ q.length then .error .boundsError
    else .ok (s.setBuf sd (flipAt q [idx]), q.length)

end Sys2Proof.Machine
end

