-- ==== Sys2Proof/Machine/SyndromeDecoder.lean ====
section
/-! DEFINITION. The syndrome decoder: DECB, DEC (43_syndrome_decoder.md). -/

namespace Sys2Proof.Machine

/-- `syndrome(r)`, the product of the 1 x 7 received word and HT (R130). -/
def syndrome (r : Bits) : Bits := (gf2Product ⟨1, 7, r⟩ codeHT).entries

/-- `decode_block(r)` (R131). The zero syndrome is handled before any lookup; `none` is the no-match branch, an
internal invariant violation (R133, DESIGN CHOICE to keep it, log entry 9). The flip is on a copy (R136). -/
def decodeBlock (r : Bits) : Option Bits :=
  if syndrome r = zeros 3 then some (r.take 4)
  else
    match errorPosition (syndrome r) with
    | some i => some ((flipAt r [i]).take 4)
    | none => none

/-- The decoded messages of consecutive 7-bit blocks in order (R138); the commands call it on whole blocks only. -/
def decodeStream : Bits → Option Bits
  | r0 :: r1 :: r2 :: r3 :: r4 :: r5 :: r6 :: q =>
    match decodeBlock [r0, r1, r2, r3, r4, r5, r6], decodeStream q with
    | some m, some ms => some (m ++ ms)
    | _, _ => none
  | _ => some []

/-- `DECB Sd, Sa` (R137). -/
def execDecb (sd sa : BufId) (s : State) : Out :=
  perform (.decb sd sa) s <|
    if (s.buf sa).length ≠ 7 then .error .contractError
    else
      match decodeBlock (s.buf sa) with
      | none => .error .invariantViolation
      | some m => .ok (s.setBuf sd m, 4)

/-- `DEC Sd, Sa` (R139). -/
def execDec (sd sa : BufId) (s : State) : Out :=
  perform (.dec sd sa) s <|
    if (s.buf sa).length % 7 ≠ 0 then .error .lengthError
    else
      match decodeStream (s.buf sa) with
      | none => .error .invariantViolation
      | some q => .ok (s.setBuf sd q, 4 * (s.buf sa).length / 7)

end Sys2Proof.Machine
end

