-- ==== Sys2Proof/Machine/Pipeline.lean ====
section
/-! DEFINITION. The pipeline orchestrator: RUN, CMP (46_pipeline.md), and the two pseudo-instructions of
30_encoding.md R89. -/

namespace Sys2Proof.Machine

/-- What `run` returns: the recovered message and the counts of R176. -/
structure RunReport where
  recovered : Bits
  total : Nat
  padlen : Nat
  flips : Nat
  resid : Nat
  enclen : Nat
deriving DecidableEq, Repr

/-- `run(q, k, F)` (R175): pad to 4, encode (the encoder pads to 28), flip the encoded stream, decode, keep the first
`L0` bits, count the differences. `none` is the decoder's no-match branch. -/
def runPipeline (q : Bits) (k : Nat) (F : List Nat) : Option RunReport :=
  let M := padTo q 4
  let E := encodeStream M
  match decodeStream (flipAt E F) with
  | none => none
  | some D =>
    let R := D.take q.length
    some
      { recovered := R
        total := q.length
        padlen := M.length - q.length
        flips := k
        resid := bitDist q R
        enclen := E.length }

/-- `EL` of R177: the encoded length of a message of `len` bits after both paddings (44_padding_framing.md R151). -/
def runLength (len : Nat) : Nat := encodedLength (len + padCount len 4)

/-- The five RUN result registers take a report's counts (R176, 10_state.md R30). -/
def State.setReport (s : State) (r : RunReport) : State :=
  { s with
    total := BitVec.ofNat 16 r.total
    padlen := BitVec.ofNat 2 r.padlen
    flips := BitVec.ofNat 16 r.flips
    resid := BitVec.ofNat 16 r.resid
    enclen := BitVec.ofNat 16 r.enclen }

/-- `RUN Sd, Sa, k` (R177): Overflow, then RangeError, then the pipeline on the drawn flip set. -/
def execRun (sd sa : BufId) (k : Nat) (s : State) : Out :=
  perform (.run sd sa k) s <|
    let q := s.buf sa
    let el := runLength q.length
    if el > s.cap then .error .overflow
    else if k > el then .error .rangeError
    else
      match runPipeline q k (s.drawSet el k) with
      | none => .error .invariantViolation
      | some r => .ok (((s.afterDraw el k).setBuf sd r.recovered).setReport r, r.resid)

/-- `CMP Sa, Sb` (R179). -/
def execCmp (sa sb : BufId) (s : State) : Out :=
  perform (.cmp sa sb) s <|
    if (s.buf sa).length ≠ (s.buf sb).length then .error .lengthError
    else .ok (s, bitDist (s.buf sa) (s.buf sb))

/-! ## The random-index port (30_encoding.md R74) -/

/-- What a command shows on the random-index port: NOISE and RUN the requests of their draw, once their checks have
passed (45_noise_injector.md R162, R165, 60_exceptions.md R220); no other command asks (R163). -/
def portExchanges (i : Instr) (s : State) : List RndExchange :=
  match i with
  | .noise _ sa k =>
    let len := (s.buf sa).length
    if s.halted || decide (k > len) then [] else s.drawExchanges len k
  | .run _ sa k =>
    let el := runLength (s.buf sa).length
    if s.halted || decide (el > s.cap) || decide (k > el) then [] else s.drawExchanges el k
  | .clr _ | .push _ _ | .mov _ _ | .len _ | .read _ _ _ | .rdsr _ | .mmul _ _ _ _ _ _ _ | .ldg _ | .ldht _
  | .encb _ _ | .enc _ _ | .decb _ _ | .dec _ _ | .pad _ _ _ | .trunc _ _ _ | .flip _ _ _ | .cmp _ _ => []

/-! ## Pseudo-instructions (30_encoding.md R89) -/

/-- The PUSHes of LOADBITS: 16 bits each while bits are left. `n` bounds how many there can be. -/
def pushChunks (sd : BufId) : Nat → Bits → List Instr
  | 0, _ => []
  | n + 1, q => if q.isEmpty then [] else .push sd (q.take 16) :: pushChunks sd n (q.drop 16)

/-- `LOADBITS Sd, 0b<digits>`: clear, then push the digits in sixteens. -/
def loadBits (sd : BufId) (q : Bits) : List Instr := .clr sd :: pushChunks sd q.length q

/-- `PAD4 Sd, Sa`. -/
def pad4 (sd sa : BufId) : List Instr := [.pad sd sa 4]

end Sys2Proof.Machine
end

