-- ==== Sys2Proof/Machine/Dispatch.lean ====
section
/-! DEFINITION. One arm per command: its meaning (30_encoding.md R79). -/

namespace Sys2Proof.Machine

def exec (i : Instr) (s : State) : Host.Outcome State Fault Refusal :=
  match i with
  -- 47_host_access_commands.md
  | .clr sd => Sys2Proof.Machine.execClr sd s
  | .push sd lit => Sys2Proof.Machine.execPush sd lit s
  | .mov sd sa => Sys2Proof.Machine.execMov sd sa s
  | .len sa => Sys2Proof.Machine.execLen sa s
  | .read sa off cnt => Sys2Proof.Machine.execRead sa off cnt s
  | .rdsr idx => Sys2Proof.Machine.execRdsr idx s
  -- 40_gf2_matrix_engine.md
  | .mmul sd sa sb m n k p => Sys2Proof.Machine.execMmul sd sa sb m n k p s
  -- 41_code_tables.md
  | .ldg sd => Sys2Proof.Machine.execLdg sd s
  | .ldht sd => Sys2Proof.Machine.execLdht sd s
  -- 42_block_encoder.md
  | .encb sd sa => Sys2Proof.Machine.execEncb sd sa s
  | .enc sd sa => Sys2Proof.Machine.execEnc sd sa s
  -- 43_syndrome_decoder.md
  | .decb sd sa => Sys2Proof.Machine.execDecb sd sa s
  | .dec sd sa => Sys2Proof.Machine.execDec sd sa s
  -- 44_padding_framing.md
  | .pad sd sa multiple => Sys2Proof.Machine.execPad sd sa multiple s
  | .trunc sd sa n => Sys2Proof.Machine.execTrunc sd sa n s
  -- 45_noise_injector.md
  | .noise sd sa k => Sys2Proof.Machine.execNoise sd sa k s
  | .flip sd sa idx => Sys2Proof.Machine.execFlip sd sa idx s
  -- 46_pipeline.md
  | .run sd sa k => Sys2Proof.Machine.execRun sd sa k s
  | .cmp sa sb => Sys2Proof.Machine.execCmp sa sb s

end Sys2Proof.Machine
end

