-- ==== Sys2Proof/Machine/Step.lean ====
section
/-! DEFINITION. One step of the block: the next thing its host does. A command word is accepted, decoded, executed and
answered in one step (10_state.md R20, 92_eei_decisions.md D2). -/

namespace Sys2Proof.Machine

/-- One step. A command word that is accepted finds the earlier response taken (30_encoding.md R75); with nothing from
the host the block waits (log entry 2). -/
def step (s : State) : Host.Outcome State Fault Refusal :=
  match s.input with
  | [] => .next s
  | .command w :: rest =>
    match decode w with
    | .ok i => exec i { s with input := rest, rsp := none }
    | .error _ => .next (illegalWord w { s with input := rest, rsp := none })
  | .takeResponse :: rest => .next (takeResponse { s with input := rest })
  | .reset :: rest => .next (applyReset { s with input := rest })

/-- The state in which the word with bits `w` (bits at and above `nbits` zero) is the next the host presents. -/
def State.withFetchWord (s : State) (nbits w : Nat) : State :=
  { s with input := .command (BitVec.ofNat 32 (w % 2 ^ nbits)) :: s.input }

end Sys2Proof.Machine
end

