-- ==== Sys2Proof/Machine/Assembler.lean ====
section
/-! DEFINITION. The assembler notation of 30_encoding.md R88 and its pseudo-instructions (R89): how a command is
written, and what a line of text stands for. Text is a list of characters; the block itself sees command words only. -/

namespace Sys2Proof.Machine

/-- Characters in a row. -/
abbrev Text := List Char

/-! ## Writing -/

/-- The mnemonic of an opcode (30_encoding.md R79). -/
def opText : Op → Text
  | .clr => ['C', 'L', 'R']
  | .push => ['P', 'U', 'S', 'H']
  | .mov => ['M', 'O', 'V']
  | .len => ['L', 'E', 'N']
  | .read => ['R', 'E', 'A', 'D']
  | .rdsr => ['R', 'D', 'S', 'R']
  | .mmul => ['M', 'M', 'U', 'L']
  | .ldg => ['L', 'D', 'G']
  | .ldht => ['L', 'D', 'H', 'T']
  | .encb => ['E', 'N', 'C', 'B']
  | .enc => ['E', 'N', 'C']
  | .decb => ['D', 'E', 'C', 'B']
  | .dec => ['D', 'E', 'C']
  | .pad => ['P', 'A', 'D']
  | .trunc => ['T', 'R', 'U', 'N', 'C']
  | .noise => ['N', 'O', 'I', 'S', 'E']
  | .flip => ['F', 'L', 'I', 'P']
  | .run => ['R', 'U', 'N']
  | .cmp => ['C', 'M', 'P']

/-- `S0` to `S3`. -/
def bufText (b : BufId) : Text := 'S' :: Nat.toDigits 10 b.num

/-- The name of a status register (10_state.md R26). -/
def srText : SReg → Text
  | .STATE => ['S', 'T', 'A', 'T', 'E']
  | .CAUSE => ['C', 'A', 'U', 'S', 'E']
  | .FCMD => ['F', 'C', 'M', 'D']
  | .TOTAL => ['T', 'O', 'T', 'A', 'L']
  | .PADLEN => ['P', 'A', 'D', 'L', 'E', 'N']
  | .FLIPS => ['F', 'L', 'I', 'P', 'S']
  | .RESID => ['R', 'E', 'S', 'I', 'D']
  | .ENCLEN => ['E', 'N', 'C', 'L', 'E', 'N']
  | .CAP => ['C', 'A', 'P']
  | .ID => ['I', 'D']

/-- A bit literal: `0b`, then index 0 first. -/
def litText (q : Bits) : Text := '0' :: 'b' :: q.map fun b => if b then '1' else '0'

/-- A number in decimal. -/
def numText (v : Nat) : Text := Nat.toDigits 10 v

/-- The operands of a command as written: destination, sources, immediates. -/
def operandTexts : Instr → List Text
  | .clr sd => [bufText sd]
  | .push sd lit => [bufText sd, litText lit]
  | .mov sd sa => [bufText sd, bufText sa]
  | .len sa => [bufText sa]
  | .read sa off cnt => [bufText sa, numText off, numText cnt]
  | .rdsr idx => [srText idx]
  | .mmul sd sa sb m n k p =>
    [bufText sd, bufText sa, bufText sb, numText m, numText n, numText k, numText p]
  | .ldg sd => [bufText sd]
  | .ldht sd => [bufText sd]
  | .encb sd sa => [bufText sd, bufText sa]
  | .enc sd sa => [bufText sd, bufText sa]
  | .decb sd sa => [bufText sd, bufText sa]
  | .dec sd sa => [bufText sd, bufText sa]
  | .pad sd sa multiple => [bufText sd, bufText sa, numText multiple]
  | .trunc sd sa n => [bufText sd, bufText sa, numText n]
  | .noise sd sa k => [bufText sd, bufText sa, numText k]
  | .flip sd sa idx => [bufText sd, bufText sa, numText idx]
  | .run sd sa k => [bufText sd, bufText sa, numText k]
  | .cmp sa sb => [bufText sa, bufText sb]

/-- `MNEMONIC operand, operand, ...`. -/
def asmText (i : Instr) : Text := opText i.op ++ ' ' :: List.intercalate [',', ' '] (operandTexts i)

/-! ## Reading -/

/-- A hexadecimal digit's value. -/
def digitVal? (c : Char) : Option Nat :=
  if '0' ≤ c ∧ c ≤ '9' then some (c.toNat - 48)
  else if 'a' ≤ c ∧ c ≤ 'f' then some (c.toNat - 87)
  else if 'A' ≤ c ∧ c ≤ 'F' then some (c.toNat - 55)
  else none

/-- Digits in a base, most significant first, onto a value already read. -/
def digitsVal? (base : Nat) : Nat → Text → Option Nat
  | v, [] => some v
  | v, c :: cs =>
    match digitVal? c with
    | some d => if d < base then digitsVal? base (v * base + d) cs else none
    | none => none

/-- A number, decimal or hexadecimal with `0x`. -/
def readNum? : Text → Option Nat
  | [] => none
  | '0' :: 'x' :: [] => none
  | '0' :: 'x' :: cs => digitsVal? 16 0 cs
  | cs => digitsVal? 10 0 cs

/-- A buffer name. -/
def readBuf? (t : Text) : Option BufId := [BufId.S0, .S1, .S2, .S3].find? fun b => bufText b == t

/-- The ten status registers, by number. -/
def allSregs : List SReg := [.STATE, .CAUSE, .FCMD, .TOTAL, .PADLEN, .FLIPS, .RESID, .ENCLEN, .CAP, .ID]

/-- A status register, by number or by name. -/
def readSreg? (t : Text) : Option SReg :=
  match allSregs.find? fun r => srText r == t with
  | some r => some r
  | none => (readNum? t).bind SReg.ofNum?

/-- Binary digits. -/
def readBits? : Text → Option Bits
  | [] => some []
  | '0' :: cs => (readBits? cs).map (false :: ·)
  | '1' :: cs => (readBits? cs).map (true :: ·)
  | _ => none

/-- A bit literal with any number of digits. -/
def readLit? : Text → Option Bits
  | '0' :: 'b' :: cs => readBits? cs
  | _ => none

/-- Text cut at every `sep`. -/
def cutAt (sep : Char) : Text → List Text
  | [] => [[]]
  | c :: cs =>
    if c = sep then [] :: cutAt sep cs
    else
      match cutAt sep cs with
      | [] => [[c]]
      | t :: ts => (c :: t) :: ts

/-- Text without the blanks at its ends. -/
def trimText (t : Text) : Text := ((t.dropWhile (· == ' ')).reverse.dropWhile (· == ' ')).reverse

/-- The command of an opcode and its operands as written; `none` if they are not its operands, or no word holds them. -/
def readCommand? (op : Op) (ts : List Text) : Option Instr :=
  let i? : Option Instr :=
    match op, ts with
    | .clr, [d] => do some (.clr (← readBuf? d))
    | .push, [d, l] => do some (.push (← readBuf? d) (← readLit? l))
    | .mov, [d, a] => do some (.mov (← readBuf? d) (← readBuf? a))
    | .len, [a] => do some (.len (← readBuf? a))
    | .read, [a, o, c] => do some (.read (← readBuf? a) (← readNum? o) (← readNum? c))
    | .rdsr, [r] => do some (.rdsr (← readSreg? r))
    | .mmul, [d, a, b, m, n, k, p] => do
      some (.mmul (← readBuf? d) (← readBuf? a) (← readBuf? b)
        (← readNum? m) (← readNum? n) (← readNum? k) (← readNum? p))
    | .ldg, [d] => do some (.ldg (← readBuf? d))
    | .ldht, [d] => do some (.ldht (← readBuf? d))
    | .encb, [d, a] => do some (.encb (← readBuf? d) (← readBuf? a))
    | .enc, [d, a] => do some (.enc (← readBuf? d) (← readBuf? a))
    | .decb, [d, a] => do some (.decb (← readBuf? d) (← readBuf? a))
    | .dec, [d, a] => do some (.dec (← readBuf? d) (← readBuf? a))
    | .pad, [d, a, v] => do some (.pad (← readBuf? d) (← readBuf? a) (← readNum? v))
    | .trunc, [d, a, v] => do some (.trunc (← readBuf? d) (← readBuf? a) (← readNum? v))
    | .noise, [d, a, v] => do some (.noise (← readBuf? d) (← readBuf? a) (← readNum? v))
    | .flip, [d, a, v] => do some (.flip (← readBuf? d) (← readBuf? a) (← readNum? v))
    | .run, [d, a, v] => do some (.run (← readBuf? d) (← readBuf? a) (← readNum? v))
    | .cmp, [a, b] => do some (.cmp (← readBuf? a) (← readBuf? b))
    | _, _ => none
  i?.filter Instr.wellFormed

/-- The commands a mnemonic and its operands stand for: one, or the expansion of a pseudo-instruction (R89). -/
def readLine? (name : Text) (ts : List Text) : Option (List Instr) :=
  match Op.all.find? (fun op => opText op == name) with
  | some op => (readCommand? op ts).map ([·])
  | none =>
    match ts with
    | [d, x] =>
      if name = ['L', 'O', 'A', 'D', 'B', 'I', 'T', 'S'] then do some (loadBits (← readBuf? d) (← readLit? x))
      else if name = ['P', 'A', 'D', '4'] then do some (pad4 (← readBuf? d) (← readBuf? x))
      else none
    | _ => none

/-- The commands a line of text stands for: none for a blank line or a comment (R88). -/
def assembleLine (line : Text) : Option (List Instr) :=
  match trimText (line.takeWhile (· != ';')) with
  | [] => some []
  | c :: cs =>
    let name := (c :: cs).takeWhile (· != ' ')
    readLine? name ((cutAt ',' ((c :: cs).drop name.length)).map trimText)

/-- The commands a program text stands for, one line after another. -/
def assemble (program : Text) : Option (List Instr) :=
  (cutAt '\n' program).foldr
    (fun line rest =>
      match assembleLine line, rest with
      | some is, some js => some (is ++ js)
      | _, _ => none)
    (some [])

end Sys2Proof.Machine
end

