-- ==== Sys2Proof/Safety.lean ====
section
/-! DEFINITION. What holds of every reachable state (10_state.md R21, R31), and what a run of a program is, what is
observed of it, and when it is good (70_reset_and_hazards.md R249, 60_exceptions.md R213). -/

namespace Sys2Proof.Machine

/-- The capacity is one the spec allows (00_scope.md R6, section 5). -/
abbrev State.CapOk (s : State) : Prop := 49 ≤ s.cap ∧ s.cap ≤ 65535

/-- Every buffer holds at most `CAP` bits (R21). -/
abbrev State.BuffersFit (s : State) : Prop :=
  s.s0.length ≤ s.cap ∧ s.s1.length ≤ s.cap ∧ s.s2.length ≤ s.cap ∧ s.s3.length ≤ s.cap

/-- `CAUSE` is one of 0, 1, 2, 3, 4, 5, 8, 9, 10, and `STATE = 1` implies it is 8, 9 or 10 (R31). -/
abbrev State.CauseLegal (s : State) : Prop :=
  s.cause ∈ [0, 1, 2, 3, 4, 5, 8, 9, 10] ∧ (s.halted = true → s.cause ∈ [8, 9, 10])

/-- The RUN result registers are legal (R31). -/
abbrev State.CountsLegal (s : State) : Prop :=
  s.total.toNat ≤ s.cap ∧ s.padlen.toNat ≤ 3 ∧ s.enclen.toNat ≤ s.cap ∧ s.flips.toNat ≤ s.enclen.toNat ∧
    s.resid.toNat ≤ s.total.toNat ∧ s.enclen.toNat % 49 = 0

/-- The invariant of every reachable state. -/
abbrev State.Inv (s : State) : Prop := s.CapOk ∧ s.BuffersFit ∧ s.CauseLegal ∧ s.CountsLegal

/-- The run of a program, a finite list of command words, each presented in turn: the responses in order, and the
state once the last response has been taken (R249). -/
def runWords : List Word → State → List Response × State
  | [], s => ([], takeResponse s)
  | w :: ws, s =>
    match step { s with input := .command w :: s.input } with
    | .next t => (t.rsp.toList ++ (runWords ws t).1, (runWords ws t).2)
    | .fault _ => ([], s)
    | .refused _ => ([], s)

/-- An admissible flip set: `k` distinct indices below `bound` (45_noise_injector.md R163). -/
abbrev FlipSet (bound k : Nat) (F : List Nat) : Prop := F.Nodup ∧ F.length = k ∧ ∀ x ∈ F, x < bound

/-- How many flips of a set fall in the 7-bit block `j` of a stream. -/
def flipsInBlock (F : List Nat) (j : Nat) : Nat := (F.filter (fun x => x / 7 == j)).length

/-- The faults a command can end with besides `Halted` and, for its words, `IllegalCommand`: the entries marked `x` in
the table of 60_exceptions.md R228. -/
def canFault : Op → List Status
  | .clr | .mov | .len | .rdsr | .ldg | .ldht => []
  | .push | .pad => [.overflow]
  | .read | .trunc | .flip => [.boundsError]
  | .mmul => [.lengthError, .overflow, .shapeMismatch]
  | .encb | .decb => [.contractError]
  | .enc => [.lengthError, .overflow]
  | .dec | .cmp => [.lengthError]
  | .noise => [.rangeError]
  | .run => [.rangeError, .overflow]

/-- A run is good only if the block is not halted at its end (R249, R213). -/
abbrev GoodRun (ws : List Word) (s : State) : Prop := (runWords ws s).2.halted = false

end Sys2Proof.Machine
end

