-- ==== Sys2Proof/Certificates/Slice0/Obligations.lean ====
section
/-! DEFINITION. The statements for the provers: what the spec's numbered rules say the block does. A word is presented
through the field `input`, the model's form of the host (log entry 2); the draw of NOISE and RUN is the model's free
value (log entries 3 and 4). No statement rests on a value of either. -/

open Sys2Proof Sys2Proof.Machine

/-! ## Encoding (30_encoding.md) -/

/-- Words of 95_test_vectors.md V13 and of the examples of files 40 to 47, written out there from the formats, decode to
the commands they stand for, or to none. -/
def Obligations.WordsOfTheSpecDecodeAsPrinted : Prop :=
  decode 0x01000000 = .ok (.clr .S0) ∧
  decode 0x0203A000 = .ok (.push .S0 (bits [1, 0, 1, 0])) ∧
  decode 0x02000000 = .ok (.push .S0 (bits [0])) ∧
  decode 0x05120004 = .ok (.read .S1 4 3) ∧
  decode 0x06000009 = .ok (.rdsr .ID) ∧
  decode 0x10841447 = .ok (.mmul .S2 .S0 .S1 1 4 4 7) ∧
  decode 0x21400000 = .ok (.ldht .S1) ∧
  decode 0x31400000 = .ok (.enc .S1 .S0) ∧
  decode 0x40E00000 = .ok (.decb .S3 .S2) ∧
  decode 0x51E00005 = .ok (.trunc .S3 .S2 5) ∧
  decode 0x6090FFFF = .ok (.noise .S2 .S1 65535) ∧
  decode 0x710C0000 = .ok (.cmp .S0 .S3) ∧
  decode 0x00000000 = .error .unassignedOp ∧
  decode 0xFFFFFFFF = .error .unassignedOp ∧
  decode 0x30410000 = .error .reservedField ∧
  decode 0x0203A800 = .error .pushTail ∧
  decode 0x50400000 = .error .padZero ∧
  decode 0x0600000A = .error .noRegister

/-- Every command's word is the one its rule writes (the Encoding line of R190 to R197, R104, R115, R116, R122, R124,
R137, R139, R152, R154, R164, R166, R177, R179). -/
def Obligations.CommandWordsAreThoseOfTheirRules : Prop :=
  ∀ (sd sa sb : BufId) (lit : Bits) (off cnt m n k p v : Nat) (r : SReg),
    fitsImm off → fitsCount cnt → fitsImm v → fitsDim m → fitsDim n → fitsDim k → fitsDim p → fitsCount lit.length →
    encode (.clr sd) = BitVec.ofNat 32 (0x01000000 + sd.num * 2 ^ 22) ∧
    encode (.push sd lit) =
      BitVec.ofNat 32 (0x02000000 + sd.num * 2 ^ 22 + (lit.length - 1) * 2 ^ 16 + packLeft lit) ∧
    encode (.mov sd sa) = BitVec.ofNat 32 (0x03000000 + sd.num * 2 ^ 22 + sa.num * 2 ^ 20) ∧
    encode (.len sa) = BitVec.ofNat 32 (0x04000000 + sa.num * 2 ^ 20) ∧
    encode (.read sa off cnt) = BitVec.ofNat 32 (0x05000000 + sa.num * 2 ^ 20 + (cnt - 1) * 2 ^ 16 + off) ∧
    encode (.rdsr r) = BitVec.ofNat 32 (0x06000000 + r.num) ∧
    encode (.mmul sd sa sb m n k p) =
      BitVec.ofNat 32 (0x10000000 + sd.num * 2 ^ 22 + sa.num * 2 ^ 20 + sb.num * 2 ^ 18 +
        m * 2 ^ 12 + n * 2 ^ 8 + k * 2 ^ 4 + p) ∧
    encode (.ldg sd) = BitVec.ofNat 32 (0x20000000 + sd.num * 2 ^ 22) ∧
    encode (.ldht sd) = BitVec.ofNat 32 (0x21000000 + sd.num * 2 ^ 22) ∧
    encode (.encb sd sa) = BitVec.ofNat 32 (0x30000000 + sd.num * 2 ^ 22 + sa.num * 2 ^ 20) ∧
    encode (.enc sd sa) = BitVec.ofNat 32 (0x31000000 + sd.num * 2 ^ 22 + sa.num * 2 ^ 20) ∧
    encode (.decb sd sa) = BitVec.ofNat 32 (0x40000000 + sd.num * 2 ^ 22 + sa.num * 2 ^ 20) ∧
    encode (.dec sd sa) = BitVec.ofNat 32 (0x41000000 + sd.num * 2 ^ 22 + sa.num * 2 ^ 20) ∧
    encode (.pad sd sa v) = BitVec.ofNat 32 (0x50000000 + sd.num * 2 ^ 22 + sa.num * 2 ^ 20 + v) ∧
    encode (.trunc sd sa v) = BitVec.ofNat 32 (0x51000000 + sd.num * 2 ^ 22 + sa.num * 2 ^ 20 + v) ∧
    encode (.noise sd sa v) = BitVec.ofNat 32 (0x60000000 + sd.num * 2 ^ 22 + sa.num * 2 ^ 20 + v) ∧
    encode (.flip sd sa v) = BitVec.ofNat 32 (0x61000000 + sd.num * 2 ^ 22 + sa.num * 2 ^ 20 + v) ∧
    encode (.run sd sa v) = BitVec.ofNat 32 (0x70000000 + sd.num * 2 ^ 22 + sa.num * 2 ^ 20 + v) ∧
    encode (.cmp sa sb) = BitVec.ofNat 32 (0x71000000 + sa.num * 2 ^ 20 + sb.num * 2 ^ 18)

/-- Every well-formed command decodes back from its word, with every operand (R80). -/
def Obligations.DecodeOfEncodeIsTheCommand : Prop :=
  ∀ i : Instr, i.WellFormed → decode (encode i) = .ok i

/-- Every word that decodes is the word of a well-formed command, and of that one only (R80). -/
def Obligations.EncodeOfDecodeIsTheWord : Prop :=
  ∀ (w : Word) (i : Instr), decode w = .ok i → i.WellFormed ∧ encode i = w

/-- A word whose `op` is not one of the 19 values is answered IllegalCommand and changes no buffer and no RUN result
register; the all-zero and the all-one word are such words (R81). -/
def Obligations.UnassignedOpcodeIsAnsweredIllegal : Prop :=
  (∀ (s : State) (w : Word) (rest : List HostInput), s.input = .command w :: rest → s.halted = false →
    field w 31 24 ∉ [0x01, 0x02, 0x03, 0x04, 0x05, 0x06, 0x10, 0x20, 0x21, 0x30, 0x31, 0x40, 0x41, 0x50, 0x51, 0x60,
      0x61, 0x70, 0x71] →
    step s = .next { s with input := rest, cause := 1, fcmd := w, rsp := some ⟨.illegalCommand, 0⟩ }) ∧
  decode 0x00000000 = .error .unassignedOp ∧ decode 0xFFFFFFFF = .error .unassignedOp

/-- In every word that decodes, the fields its command does not use are zero; so a word with a legal `op` and a
non-zero reserved field is illegal (R82). -/
def Obligations.UnusedFieldsAreZeroInEveryCommand : Prop :=
  ∀ (w : Word) (i : Instr), decode w = .ok i →
    i.op.code = field w 31 24 ∧
    match i with
    | .clr _ | .ldg _ | .ldht _ => field w 21 20 = 0 ∧ field w 19 18 = 0 ∧ field w 17 16 = 0 ∧ field w 15 0 = 0
    | .push _ _ => field w 21 20 = 0
    | .mov _ _ | .encb _ _ | .enc _ _ | .decb _ _ | .dec _ _ =>
      field w 19 18 = 0 ∧ field w 17 16 = 0 ∧ field w 15 0 = 0
    | .len _ => field w 23 22 = 0 ∧ field w 19 18 = 0 ∧ field w 17 16 = 0 ∧ field w 15 0 = 0
    | .read _ _ _ => field w 23 22 = 0
    | .rdsr _ => field w 23 22 = 0 ∧ field w 21 20 = 0 ∧ field w 19 18 = 0 ∧ field w 17 16 = 0
    | .mmul _ _ _ _ _ _ _ => field w 17 16 = 0
    | .pad _ _ _ | .trunc _ _ _ | .noise _ _ _ | .flip _ _ _ | .run _ _ _ => field w 19 18 = 0 ∧ field w 17 16 = 0
    | .cmp _ _ => field w 23 22 = 0 ∧ field w 17 16 = 0 ∧ field w 15 0 = 0

/-- A PUSH with a non-zero bit below its literal, a PAD with immediate 0 and an RDSR with immediate above 9 are
illegal (R83, R84, R86). -/
def Obligations.PushTailPadZeroAndHighRegistersAreIllegal : Prop :=
  ∀ (w : Word) (i : Instr), decode w = .ok i →
    (field w 31 24 = 0x02 → field w 15 0 % 2 ^ (16 - (field w 19 16 + 1)) = 0) ∧
    (field w 31 24 = 0x50 → field w 15 0 ≠ 0) ∧
    (field w 31 24 = 0x06 → field w 15 0 ≤ 9)

/-! ## The step (10_state.md, 30_encoding.md, 60_exceptions.md, 70_reset_and_hazards.md) -/

/-- A step that accepts a word which decodes is that command's execution, with the word consumed and the earlier
response taken (R20, R75). That the earlier response is taken by then is the model's reading of R75 (DEDUCED, log
entry 2). -/
def Obligations.StepRunsTheDecodedCommand : Prop :=
  ∀ (s : State) (w : Word) (rest : List HostInput) (i : Instr), s.input = .command w :: rest → decode w = .ok i →
    step s = exec i { s with input := rest, rsp := none }

/-- While running, a word that does not decode, for whatever reason, is answered `(IllegalCommand, 0)`, recorded in
CAUSE and FCMD, and changes nothing else; it does not halt the block (R214, R211). -/
def Obligations.UndecodableWordIsIllegalCommand : Prop :=
  ∀ (s : State) (w : Word) (rest : List HostInput) (e : Illegal), s.input = .command w :: rest → s.halted = false →
    decode w = .error e →
    step s = .next { s with input := rest, cause := 1, fcmd := w, rsp := some ⟨.illegalCommand, 0⟩ }

/-- While halted, a legal RDSR executes; every other word, legal or not, is answered `(Halted, 0)` and changes nothing;
only reset leaves the state (R213). -/
def Obligations.HaltedBlockAnswersHaltedOnly : Prop :=
  (∀ (s : State) (w : Word) (rest : List HostInput), s.input = .command w :: rest → s.halted = true →
    (∀ r, decode w = .ok (.rdsr r) →
      step s = .next { s with input := rest, rsp := some ⟨.ok, s.readSr r⟩ }) ∧
    ((∀ r, decode w ≠ .ok (.rdsr r)) →
      step s = .next { s with input := rest, rsp := some ⟨.halted, 0⟩ })) ∧
  (∀ s t : State, step s = .next t → s.halted = true → t.halted = false → ∃ rest, s.input = .reset :: rest)

/-- Reset leaves every buffer empty, `SR0` to `SR7` zero, CAP and ID at their constants and no response pending,
whatever the block held before; so does `State.reset` (R35). The rest of the host's inputs is the environment's and stays
(log entry 2). -/
def Obligations.ResetLeavesTheResetValues : Prop :=
  (∀ (s : State) (rest : List HostInput), s.input = .reset :: rest →
    ∃ t, step s = .next t ∧ (∀ b, t.buf b = []) ∧
      (∀ r, r ≠ .CAP → r ≠ .ID → t.readSr r = 0) ∧ t.readSr .CAP = BitVec.ofNat 32 s.cap ∧
      t.readSr .ID = 0x07040001 ∧ t.rsp = none ∧ t.input = rest) ∧
  (∀ b, State.reset.buf b = []) ∧ (∀ r, r ≠ .CAP → r ≠ .ID → State.reset.readSr r = 0) ∧
    State.reset.readSr .CAP = BitVec.ofNat 32 Config.cap ∧ State.reset.readSr .ID = 0x07040001 ∧ State.reset.rsp = none

/-- Between commands nothing changes but the response port: taking the response empties it, and with nothing from the
host the block waits. The second clause is the model's reading (log entry 2). -/
def Obligations.BetweenCommandsNothingChanges : Prop :=
  (∀ (s : State) (rest : List HostInput), s.input = .takeResponse :: rest →
    step s = .next { s with input := rest, rsp := none }) ∧
  (∀ s : State, s.input = [] → step s = .next s)

/-- Every accepted word, whatever it is and whatever the state, gets exactly one response, in one step that consumes it
and leaves the rest of the host's inputs; no step stops the machine (R20, R75, R213). The list of the host's inputs is the model's form (log entry 2); that NOISE
and RUN answer rests on the fair source the spec assumes (log entry 4). -/
def Obligations.EveryWordGetsOneResponse : Prop :=
  (∀ (s : State) (w : Word) (rest : List HostInput), s.input = .command w :: rest →
    ∃ t r, step s = .next t ∧ t.rsp = some r ∧ t.input = rest) ∧
  (∀ s : State, ∃ t, step s = .next t)

/-! ## Whole-machine rules (10_state.md, 60_exceptions.md) -/

/-- What a fault does, exactly: CAUSE takes the status, FCMD the command word, HALTED is set if the status is 8, 9 or 10,
the response is `(status, 0)`, and nothing else changes (R220). -/
def Obligations.FaultBookkeepingIsExact : Prop :=
  ∀ (s t : State) (w : Word) (rest : List HostInput) (r : Response), s.input = .command w :: rest →
    step s = .next t → t.rsp = some r → r.status ≠ .ok → r.status ≠ .halted →
    t = { s with
      input := rest
      cause := r.status.code
      fcmd := w
      halted := decide (r.status.code ∈ [8, 9, 10])
      rsp := some ⟨r.status, 0⟩ }

/-- CAUSE and FCMD record the most recent fault: a command that ends with a status of 1 to 5 or 8 to 10 sets both, one
that ends with OK or Halted leaves both unchanged; CAUSE[31:4] reads as zero (R28). -/
def Obligations.CauseAndFcmdAreSticky : Prop :=
  (∀ (s t : State) (w : Word) (rest : List HostInput) (r : Response), s.input = .command w :: rest →
    step s = .next t → t.rsp = some r →
    (r.status.code ∈ [1, 2, 3, 4, 5, 8, 9, 10] → t.cause = r.status.code ∧ t.fcmd = w) ∧
    (r.status = .ok ∨ r.status = .halted → t.cause = s.cause ∧ t.fcmd = s.fcmd)) ∧
  (∀ s : State, (s.readSr .CAUSE).toNat < 16)

/-- HALTED is 0 after reset; a command leaves it set exactly when it was set or the command ends in a fatal fault; its
register's bits 31:1 read as zero (R27). -/
def Obligations.HaltedIsSetByFatalFaultsOnly : Prop :=
  State.reset.halted = false ∧
  (∀ (s t : State) (w : Word) (rest : List HostInput) (r : Response), s.input = .command w :: rest →
    step s = .next t → t.rsp = some r →
    (t.halted = true ↔ s.halted = true ∨ r.status ∈ [.shapeMismatch, .contractError, .invariantViolation])) ∧
  (∀ s : State, (s.readSr .STATE).toNat < 2)

/-- FRAME of every command: no buffer but the named destination changes; none at all unless the command answers OK; the
RUN registers change only in a RUN that answers OK; CAUSE, FCMD and HALTED do not change in a command that answers OK;
the capacity and the host's inputs never change (R22, R23, R28 to R30, R220). Random answers are asked for by NOISE and
RUN only, and only when they answer OK; a command takes exactly the injected answers its requests on the random-index port ask for (R74, R163,
R165, R220). The fields the last sentence and the host's inputs stand in, `rndIn`, `rndCount` and `input`, and the list
`portExchanges` are the model's choice of form (DESIGN CHOICE, log entries 2, 3 and 12). -/
def Obligations.CommandsChangeOnlyWhatTheyName : Prop :=
  ∀ (i : Instr) (s t : State) (r : Response), exec i s = .next t → t.rsp = some r →
    (∀ b, i.dest? ≠ some b → t.buf b = s.buf b) ∧
    (r.status ≠ .ok → ∀ b, t.buf b = s.buf b) ∧
    (i.op ≠ .run ∨ r.status ≠ .ok →
      t.total = s.total ∧ t.padlen = s.padlen ∧ t.flips = s.flips ∧ t.resid = s.resid ∧ t.enclen = s.enclen) ∧
    (r.status = .ok → t.cause = s.cause ∧ t.fcmd = s.fcmd ∧ t.halted = s.halted) ∧
    t.cap = s.cap ∧ t.input = s.input ∧
    ((i.op ≠ .noise ∧ i.op ≠ .run) ∨ r.status ≠ .ok →
      t.rndIn = s.rndIn ∧ t.rndCount = s.rndCount ∧ portExchanges i s = []) ∧
    t.rndIn = s.rndIn.drop (portExchanges i s).length

/-- The statuses and their codes: the ten codes of R210, bit 3 set exactly for the fatal ones and Halted, offered on
`rsp_status` with the data on `rsp_data` while a response is pending (R74). Which command can end with which status: a
well-formed command ends with OK, with Halted (not RDSR), or with a status the table gives it; and every entry of the
table occurs, in a state that meets the invariant (R228). -/
def Obligations.StatusesAreThoseOfTheTable : Prop :=
  (Status.ok.code = 0 ∧ Status.illegalCommand.code = 1 ∧ Status.lengthError.code = 2 ∧ Status.rangeError.code = 3 ∧
    Status.boundsError.code = 4 ∧ Status.overflow.code = 5 ∧ Status.shapeMismatch.code = 8 ∧
    Status.contractError.code = 9 ∧ Status.invariantViolation.code = 10 ∧ Status.halted.code = 15) ∧
  (∀ st : Status, st.code.getLsbD 3 = true ↔
    st ∈ [.shapeMismatch, .contractError, .invariantViolation, .halted]) ∧
  (∀ (s : State) (r : Response), s.rsp = some r →
    s.rspValid = true ∧ s.cmdReady = false ∧ s.rspStatus = some r.status.code ∧ s.rspData = some r.data) ∧
  (∀ (i : Instr) (s t : State) (r : Response), i.WellFormed → s.CapOk → exec i s = .next t → t.rsp = some r →
    r.status = .ok ∨ (r.status = .halted ∧ i.op ≠ .rdsr) ∨ r.status ∈ canFault i.op) ∧
  (∀ (op : Op) (st : Status), st ∈ canFault op →
    ∃ (i : Instr) (s t : State), i.op = op ∧ i.WellFormed ∧ s.Inv ∧ exec i s = .next t ∧ t.rsp = some ⟨st, 0⟩)

/-- The no-match branch of the decoder is dead: every non-zero syndrome is exactly one row of HT, and no input, no state
and no draw makes a command answer InvariantViolation (R133, R219). -/
def Obligations.InvariantViolationIsUnreachable : Prop :=
  (∀ syn : Bits, syn.length = 3 → syn ≠ zeros 3 → ∃ i, i < 7 ∧ htRow i = syn ∧ ∀ j, j < 7 → htRow j = syn → j = i) ∧
  (∀ r : Bits, decodeBlock r ≠ none) ∧
  (∀ (s t : State) (w : Word) (rest : List HostInput) (r : Response), s.input = .command w :: rest →
    step s = .next t → t.rsp = some r → r.status ≠ .invariantViolation)

/-- The result of a command depends only on the buffers it reads, its operands, the capacity, the halt latch and the
draw (the fields of log entry 3): two states that agree on those give the same response (RDSR apart) and the same destination buffer (R22, R25;
90_conflicts.md C3). -/
def Obligations.ResultDependsOnNamedSourcesOnly : Prop :=
  ∀ (i : Instr) (s s' t t' : State) (r : Response), (∀ b ∈ i.sources, s.buf b = s'.buf b) → s.halted = s'.halted →
    s.cap = s'.cap → s.rndIn = s'.rndIn → s.rndCount = s'.rndCount → exec i s = .next t → exec i s' = .next t' →
    t.rsp = some r →
    (i.op ≠ .rdsr → t'.rsp = some r) ∧ (r.status = .ok → ∀ b, i.dest? = some b → t.buf b = t'.buf b)

/-- The invariant (R21, R31) holds at reset. That the capacity lies in its range is the spec's parameter (R6). -/
def Obligations.ResetMeetsTheInvariant : Prop := State.reset.Inv

/-- Every step keeps the invariant: buffers hold at most CAP bits, CAUSE and the RUN registers hold legal values, and a
halted block has a fatal cause (R21, R31). -/
def Obligations.EveryStepKeepsTheInvariant : Prop :=
  ∀ s t : State, s.Inv → step s = .next t → t.Inv

/-- `SR8` reads as the configuration value CAP and `SR9` as `0x07040001`; neither ever changes, including at reset
(R29). -/
def Obligations.CapacityAndIdentityNeverChange : Prop :=
  (∀ s : State, s.readSr .CAP = BitVec.ofNat 32 s.cap ∧ s.readSr .ID = 0x07040001) ∧
  (∀ s t : State, step s = .next t →
    t.cap = s.cap ∧ t.readSr .CAP = s.readSr .CAP ∧ t.readSr .ID = s.readSr .ID)

/-! ## Where each command completes, and with what result (files 40 to 47) -/

/-- CLR empties its buffer and MOV copies one, in every running state (R190, R193). -/
def Obligations.ClrAndMovComplete : Prop :=
  ∀ (sd sa : BufId) (s : State), s.halted = false →
    exec (.clr sd) s = .next (respond .ok 0 (s.setBuf sd [])) ∧
    exec (.mov sd sa) s = .next (respond .ok (BitVec.ofNat 32 (s.buf sa).length) (s.setBuf sd (s.buf sa)))

/-- PUSH appends its literal after the old content when the result fits (R191). -/
def Obligations.PushCompletesWithinCapacity : Prop :=
  ∀ (sd : BufId) (lit : Bits) (s : State), s.halted = false → (s.buf sd).length + lit.length ≤ s.cap →
    exec (.push sd lit) s =
      .next (respond .ok (BitVec.ofNat 32 ((s.buf sd).length + lit.length)) (s.setBuf sd (s.buf sd ++ lit)))

/-- LEN answers the length; CMP of streams of one length answers the number of indices where they differ; neither
changes anything but the response port (R194, R179). -/
def Obligations.LenAndCmpComplete : Prop :=
  ∀ (sa sb : BufId) (s : State), s.halted = false →
    exec (.len sa) s = .next (respond .ok (BitVec.ofNat 32 (s.buf sa).length) s) ∧
    ((s.buf sa).length = (s.buf sb).length →
      exec (.cmp sa sb) s =
        .next (respond .ok
          (BitVec.ofNat 32
            ((List.range (s.buf sa).length).countP fun j => (s.buf sa).getD j false != (s.buf sb).getD j false)) s))

/-- READ of bits that exist answers them in bits 15 down to `16 - cnt`, the first at bit 15, every other bit zero, and
changes nothing else (R195, R77, R51). -/
def Obligations.ReadCompletesInsideTheStream : Prop :=
  ∀ (sa : BufId) (off cnt : Nat) (s : State), s.halted = false → fitsCount cnt → off + cnt ≤ (s.buf sa).length →
    ∃ d : Word, exec (.read sa off cnt) s = .next (respond .ok d s) ∧
      ∀ j, d.getLsbD j = if j < 16 ∧ 15 - j < cnt then (s.buf sa).getD (off + (15 - j)) false else false

/-- RDSR answers each of the ten registers, 32 bits with the bits above the field zero, in every state, halted or not,
and changes nothing else (R197, R26). -/
def Obligations.RdsrCompletesForEveryRegister : Prop :=
  ∀ s : State,
    exec (.rdsr .STATE) s = .next (respond .ok (if s.halted then 1 else 0) s) ∧
    exec (.rdsr .CAUSE) s = .next (respond .ok (BitVec.ofNat 32 s.cause.toNat) s) ∧
    exec (.rdsr .FCMD) s = .next (respond .ok s.fcmd s) ∧
    exec (.rdsr .TOTAL) s = .next (respond .ok (BitVec.ofNat 32 s.total.toNat) s) ∧
    exec (.rdsr .PADLEN) s = .next (respond .ok (BitVec.ofNat 32 s.padlen.toNat) s) ∧
    exec (.rdsr .FLIPS) s = .next (respond .ok (BitVec.ofNat 32 s.flips.toNat) s) ∧
    exec (.rdsr .RESID) s = .next (respond .ok (BitVec.ofNat 32 s.resid.toNat) s) ∧
    exec (.rdsr .ENCLEN) s = .next (respond .ok (BitVec.ofNat 32 s.enclen.toNat) s) ∧
    exec (.rdsr .CAP) s = .next (respond .ok (BitVec.ofNat 32 s.cap) s) ∧
    exec (.rdsr .ID) s = .next (respond .ok 0x07040001 s)

/-- MMUL of buffers of the declared shapes: entry `(i, j)` of the product is the integer sum of the products of row `i`
and column `j` reduced mod 2, at sequence index `i*p + j` (R101, R103 to R105). -/
def Obligations.MmulCompletesOnMatchingShapes : Prop :=
  ∀ (sd sa sb : BufId) (m n p : Nat) (s : State), s.halted = false → (s.buf sa).length = m * n →
    (s.buf sb).length = n * p → m * p ≤ s.cap →
    ∃ q : Bits, exec (.mmul sd sa sb m n n p) s = .next (respond .ok (BitVec.ofNat 32 (m * p)) (s.setBuf sd q)) ∧
      q.length = m * p ∧
      ∀ i j, i < m → j < p →
        q[i * p + j]? = some (decide
          (((List.range n).countP fun t => (s.buf sa).getD (i * n + t) false && (s.buf sb).getD (t * p + j) false) % 2
            = 1))

/-- LDG and LDHT copy the printed tables, row-major, in every running state with a capacity the spec allows
(R111, R112, R115, R116). -/
def Obligations.TableLoadsComplete : Prop :=
  ∀ (sd : BufId) (s : State), s.halted = false → s.CapOk →
    exec (.ldg sd) s =
      .next (respond .ok 28 (s.setBuf sd
        (bits [1, 0, 0, 0, 1, 1, 1] ++ bits [0, 1, 0, 0, 0, 1, 1] ++ bits [0, 0, 1, 0, 1, 0, 1] ++
          bits [0, 0, 0, 1, 1, 1, 0]))) ∧
    exec (.ldht sd) s =
      .next (respond .ok 21 (s.setBuf sd
        (bits [1, 1, 1] ++ bits [0, 1, 1] ++ bits [1, 0, 1] ++ bits [1, 1, 0] ++ bits [1, 0, 0] ++ bits [0, 1, 0] ++
          bits [0, 0, 1])))

/-- ENCB of a 4-bit block gives the message and the three parity bits of R121 (R122). -/
def Obligations.EncbCompletesOnFourBits : Prop :=
  ∀ (sd sa : BufId) (m0 m1 m2 m3 : Bit) (s : State), s.halted = false → s.buf sa = [m0, m1, m2, m3] →
    exec (.encb sd sa) s =
      .next (respond .ok 7 (s.setBuf sd [m0, m1, m2, m3, m0 ^^ m2 ^^ m3, m0 ^^ m1 ^^ m3, m0 ^^ m1 ^^ m2]))

/-- ENC of a stream of a multiple of 4 bits that fits once encoded: block `j` of the result is the codeword of block `j`
of the stream padded to a multiple of 28 (R123, R124). -/
def Obligations.EncCompletesBlockByBlock : Prop :=
  ∀ (sd sa : BufId) (s : State), s.halted = false → (s.buf sa).length % 4 = 0 →
    7 * ((s.buf sa).length + padCount (s.buf sa).length 28) / 4 ≤ s.cap →
    ∃ q : Bits, exec (.enc sd sa) s = .next (respond .ok (BitVec.ofNat 32 q.length) (s.setBuf sd q)) ∧
      q.length = 7 * ((s.buf sa).length + padCount (s.buf sa).length 28) / 4 ∧
      ∀ j, 7 * j < q.length → slice q (7 * j) 7 = encodeBlock (slice (padTo (s.buf sa) 28) (4 * j) 4)

/-- DECB of a 7-bit block: the syndrome of R132 names the one bit to invert, if any, and the first four bits are the
result; the source is not changed unless it is the destination (R131, R136, R137). -/
def Obligations.DecbCompletesOnSevenBits : Prop :=
  ∀ (sd sa : BufId) (r0 r1 r2 r3 r4 r5 r6 : Bit) (s : State), s.halted = false →
    s.buf sa = [r0, r1, r2, r3, r4, r5, r6] →
    let x := r0 ^^ r2 ^^ r3 ^^ r4
    let y := r0 ^^ r1 ^^ r3 ^^ r5
    let z := r0 ^^ r1 ^^ r2 ^^ r6
    exec (.decb sd sa) s =
      .next (respond .ok 4 (s.setBuf sd
        [r0 ^^ (x && y && z), r1 ^^ (!x && y && z), r2 ^^ (x && !y && z), r3 ^^ (x && y && !z)]))

/-- DEC of a stream of a multiple of 7 bits: block `j` of the result is the decoded block `j` of the source
(R138, R139). -/
def Obligations.DecCompletesBlockByBlock : Prop :=
  ∀ (sd sa : BufId) (s : State), s.halted = false → (s.buf sa).length % 7 = 0 →
    ∃ q : Bits, exec (.dec sd sa) s = .next (respond .ok (BitVec.ofNat 32 q.length) (s.setBuf sd q)) ∧
      q.length = 4 * (s.buf sa).length / 7 ∧
      ∀ j, 7 * j < (s.buf sa).length → decodeBlock (slice (s.buf sa) (7 * j) 7) = some (slice q (4 * j) 4)

/-- PAD by a legal multiple appends `(multiple - len mod multiple) mod multiple` zeros when the result fits, and
answers that count (R150, R152). -/
def Obligations.PadCompletesWithinCapacity : Prop :=
  ∀ (sd sa : BufId) (multiple c : Nat) (s : State), s.halted = false → 1 ≤ multiple →
    c = (multiple - (s.buf sa).length % multiple) % multiple → (s.buf sa).length + c ≤ s.cap →
    exec (.pad sd sa multiple) s =
      .next (respond .ok (BitVec.ofNat 32 c) (s.setBuf sd (s.buf sa ++ List.replicate c false)))

/-- TRUNC keeps the first `n` bits of a stream that has them (R154). -/
def Obligations.TruncCompletesInsideTheStream : Prop :=
  ∀ (sd sa : BufId) (n : Nat) (s : State), s.halted = false → n ≤ (s.buf sa).length →
    exec (.trunc sd sa n) s = .next (respond .ok (BitVec.ofNat 32 n) (s.setBuf sd ((s.buf sa).take n)))

/-- NOISE with `k` at most the stream's length inverts the bits of the drawn flip set, which is admissible, and answers
the length; only the destination and the random answers change (R160, R163, R164). `drawSet` and `afterDraw` are the
model's form of the draw (log entry 3); that the source is fair is the spec's assumption (log entry 4). -/
def Obligations.NoiseCompletesOnAnAdmissibleSet : Prop :=
  ∀ (sd sa : BufId) (k len : Nat) (s : State), s.halted = false → len = (s.buf sa).length → k ≤ len →
    FlipSet len k (s.drawSet len k) ∧
    ∃ q : Bits,
      exec (.noise sd sa k) s = .next (respond .ok (BitVec.ofNat 32 len) ((s.afterDraw len k).setBuf sd q)) ∧
      ∀ j, q[j]? = ((s.buf sa)[j]?).map fun b => if j ∈ s.drawSet len k then !b else b

/-- FLIP inverts the one bit at an index the stream has (R166). -/
def Obligations.FlipCompletesInsideTheStream : Prop :=
  ∀ (sd sa : BufId) (idx : Nat) (s : State), s.halted = false → idx < (s.buf sa).length →
    ∃ q : Bits, exec (.flip sd sa idx) s =
        .next (respond .ok (BitVec.ofNat 32 (s.buf sa).length) (s.setBuf sd q)) ∧
      ∀ j, q[j]? = ((s.buf sa)[j]?).map fun b => if j = idx then !b else b

/-- RUN on a message whose encoding fits, with `k` at most the encoded length: pad to 4, encode, flip the drawn set, which is
admissible, decode, keep `L0` bits; the five result registers and the response take the counts (R175 to R177). `drawSet` and
`afterDraw` are the model's form of the draw (log entry 3); that the source is fair is the spec's assumption (log
entry 4). -/
def Obligations.RunCompletesWithItsCounts : Prop :=
  ∀ (sd sa : BufId) (k el : Nat) (q : Bits) (s : State), s.halted = false → q = s.buf sa →
    el = (encodeStream (padTo q 4)).length → el ≤ s.cap → k ≤ el →
    FlipSet el k (s.drawSet el k) ∧
    ∃ D R : Bits, decodeStream (flipAt (encodeStream (padTo q 4)) (s.drawSet el k)) = some D ∧
      R = D.take q.length ∧ R.length = q.length ∧
      exec (.run sd sa k) s =
        .next (respond .ok (BitVec.ofNat 32 (bitDist q R))
          { (s.afterDraw el k).setBuf sd R with
            total := BitVec.ofNat 16 q.length
            padlen := BitVec.ofNat 2 ((4 - q.length % 4) % 4)
            flips := BitVec.ofNat 16 k
            resid := BitVec.ofNat 16 (bitDist q R)
            enclen := BitVec.ofNat 16 el })

/-! ## Where each fault is raised (60_exceptions.md) -/

/-- LengthError: ENC off a multiple of 4, DEC off a multiple of 7, CMP of unequal lengths, MMUL of a buffer whose
length is not the product of its declared dimensions. CAUSE takes 2, FCMD the word, the answer is `(LengthError, 0)`,
and nothing else changes (R215). -/
def Obligations.LengthErrorIsRaised : Prop :=
  ∀ (sd sa sb : BufId) (m n p : Nat) (s : State), s.halted = false →
    ((s.buf sa).length % 4 ≠ 0 →
      exec (.enc sd sa) s = .next { s with
        cause := 2, fcmd := encode (.enc sd sa), rsp := some ⟨.lengthError, 0⟩ }) ∧
    ((s.buf sa).length % 7 ≠ 0 →
      exec (.dec sd sa) s = .next { s with
        cause := 2, fcmd := encode (.dec sd sa), rsp := some ⟨.lengthError, 0⟩ }) ∧
    ((s.buf sa).length ≠ (s.buf sb).length →
      exec (.cmp sa sb) s = .next { s with
        cause := 2, fcmd := encode (.cmp sa sb), rsp := some ⟨.lengthError, 0⟩ }) ∧
    ((s.buf sa).length ≠ m * n ∨ (s.buf sb).length ≠ n * p →
      exec (.mmul sd sa sb m n n p) s = .next { s with
        cause := 2, fcmd := encode (.mmul sd sa sb m n n p), rsp := some ⟨.lengthError, 0⟩ })

/-- RangeError: NOISE when `k` exceeds the stream, RUN when `k` exceeds the encoded length and that fits; never clamped.
CAUSE takes 3, FCMD the word, the answer is `(RangeError, 0)`, and nothing else changes (R162, R216). -/
def Obligations.RangeErrorIsRaised : Prop :=
  ∀ (sd sa : BufId) (k : Nat) (s : State), s.halted = false →
    (k > (s.buf sa).length →
      exec (.noise sd sa k) s = .next { s with
        cause := 3, fcmd := encode (.noise sd sa k), rsp := some ⟨.rangeError, 0⟩ }) ∧
    ((encodeStream (padTo (s.buf sa) 4)).length ≤ s.cap → k > (encodeStream (padTo (s.buf sa) 4)).length →
      exec (.run sd sa k) s = .next { s with
        cause := 3, fcmd := encode (.run sd sa k), rsp := some ⟨.rangeError, 0⟩ })

/-- BoundsError: READ, FLIP and TRUNC of bits the stream does not have. CAUSE takes 4, FCMD the word, the answer is
`(BoundsError, 0)`, and nothing else changes (R218). -/
def Obligations.BoundsErrorIsRaised : Prop :=
  ∀ (sd sa : BufId) (off cnt idx n : Nat) (s : State), s.halted = false →
    (off + cnt > (s.buf sa).length →
      exec (.read sa off cnt) s = .next { s with
        cause := 4, fcmd := encode (.read sa off cnt), rsp := some ⟨.boundsError, 0⟩ }) ∧
    (idx ≥ (s.buf sa).length →
      exec (.flip sd sa idx) s = .next { s with
        cause := 4, fcmd := encode (.flip sd sa idx), rsp := some ⟨.boundsError, 0⟩ }) ∧
    (n > (s.buf sa).length →
      exec (.trunc sd sa n) s = .next { s with
        cause := 4, fcmd := encode (.trunc sd sa n), rsp := some ⟨.boundsError, 0⟩ })

/-- Overflow: PUSH, PAD, ENC, RUN (its encoded temporary) and MMUL when the result is longer than CAP, after the checks
that come first. CAUSE takes 5, FCMD the word, the answer is `(Overflow, 0)`, and nothing else changes (R217, R221). -/
def Obligations.OverflowIsRaised : Prop :=
  ∀ (sd sa sb : BufId) (lit : Bits) (multiple m n p k : Nat) (s : State), s.halted = false →
    ((s.buf sd).length + lit.length > s.cap →
      exec (.push sd lit) s = .next { s with
        cause := 5, fcmd := encode (.push sd lit), rsp := some ⟨.overflow, 0⟩ }) ∧
    (1 ≤ multiple → (padTo (s.buf sa) multiple).length > s.cap →
      exec (.pad sd sa multiple) s = .next { s with
        cause := 5, fcmd := encode (.pad sd sa multiple), rsp := some ⟨.overflow, 0⟩ }) ∧
    ((s.buf sa).length % 4 = 0 → (encodeStream (s.buf sa)).length > s.cap →
      exec (.enc sd sa) s = .next { s with
        cause := 5, fcmd := encode (.enc sd sa), rsp := some ⟨.overflow, 0⟩ }) ∧
    ((encodeStream (padTo (s.buf sa) 4)).length > s.cap →
      exec (.run sd sa k) s = .next { s with
        cause := 5, fcmd := encode (.run sd sa k), rsp := some ⟨.overflow, 0⟩ }) ∧
    ((s.buf sa).length = m * n → (s.buf sb).length = n * p → m * p > s.cap →
      exec (.mmul sd sa sb m n n p) s = .next { s with
        cause := 5, fcmd := encode (.mmul sd sa sb m n n p), rsp := some ⟨.overflow, 0⟩ })

/-- ShapeMismatch: MMUL when the declared `n` and `k` differ, whatever the buffers hold; fatal (R224, R104). -/
def Obligations.ShapeMismatchIsRaised : Prop :=
  ∀ (sd sa sb : BufId) (m n k p : Nat) (s : State), s.halted = false → n ≠ k →
    exec (.mmul sd sa sb m n k p) s =
      .next { s with
        cause := 8, fcmd := encode (.mmul sd sa sb m n k p), halted := true, rsp := some ⟨.shapeMismatch, 0⟩ }

/-- ContractError: ENCB of other than 4 bits, DECB of other than 7; fatal (R225). -/
def Obligations.ContractErrorIsRaised : Prop :=
  ∀ (sd sa : BufId) (s : State), s.halted = false →
    ((s.buf sa).length ≠ 4 →
      exec (.encb sd sa) s =
        .next { s with
          cause := 9, fcmd := encode (.encb sd sa), halted := true, rsp := some ⟨.contractError, 0⟩ }) ∧
    ((s.buf sa).length ≠ 7 →
      exec (.decb sd sa) s =
        .next { s with
          cause := 9, fcmd := encode (.decb sd sa), halted := true, rsp := some ⟨.contractError, 0⟩ })

/-! ## The functions (files 41 to 46) -/

/-- The codeword bit by bit; `encode_block` is linear and maps 0000 to 0000000 (R121). -/
def Obligations.CodewordBitsAndLinearity : Prop :=
  (∀ m0 m1 m2 m3 : Bit,
    encodeBlock [m0, m1, m2, m3] = [m0, m1, m2, m3, m0 ^^ m2 ^^ m3, m0 ^^ m1 ^^ m3, m0 ^^ m1 ^^ m2]) ∧
  (∀ a b : Bits, a.length = 4 → b.length = 4 →
    encodeBlock (List.zipWith xor a b) = List.zipWith xor (encodeBlock a) (encodeBlock b)) ∧
  encodeBlock (zeros 4) = zeros 7

/-- The syndrome bit by bit; it is linear, zero on codewords, unchanged by adding a codeword, and row `i` of HT for a
single error at `i` (R132, R113). -/
def Obligations.SyndromeBitsAndLinearity : Prop :=
  (∀ r0 r1 r2 r3 r4 r5 r6 : Bit,
    syndrome [r0, r1, r2, r3, r4, r5, r6] = [r0 ^^ r2 ^^ r3 ^^ r4, r0 ^^ r1 ^^ r3 ^^ r5, r0 ^^ r1 ^^ r2 ^^ r6]) ∧
  (∀ a b : Bits, a.length = 7 → b.length = 7 →
    syndrome (List.zipWith xor a b) = List.zipWith xor (syndrome a) (syndrome b)) ∧
  (∀ m : Bits, m.length = 4 → syndrome (encodeBlock m) = zeros 3) ∧
  (∀ m e : Bits, m.length = 4 → e.length = 7 → syndrome (List.zipWith xor (encodeBlock m) e) = syndrome e) ∧
  (∀ i, i < 7 → syndrome (flipAt (zeros 7) [i]) = htRow i)

/-- The guarantee and its limit: no error and any single error decode to the message; with any error pattern the result
is the first four bits of the word corrected by its syndrome; two errors always decode wrongly, in 1 to 3 bits; an error
that is a codeword decodes to the other codeword's message (R134). -/
def Obligations.DecodeBlockGuaranteeAndLimit : Prop :=
  ∀ m : Bits, m.length = 4 →
    decodeBlock (encodeBlock m) = some m ∧
    (∀ p, p < 7 → decodeBlock (flipAt (encodeBlock m) [p]) = some m) ∧
    (∀ e : Bits, e.length = 7 → ∃ u : Bits,
      ((syndrome e = zeros 3 ∧ u = zeros 7) ∨ (∃ i, i < 7 ∧ syndrome e = htRow i ∧ u = flipAt (zeros 7) [i])) ∧
      decodeBlock (List.zipWith xor (encodeBlock m) e) =
        some ((List.zipWith xor (List.zipWith xor (encodeBlock m) e) u).take 4)) ∧
    (∀ p q, p < q → q < 7 → ∃ m' : Bits, decodeBlock (flipAt (encodeBlock m) [p, q]) = some m' ∧
      m'.length = 4 ∧ 1 ≤ bitDist m m' ∧ bitDist m m' ≤ 3) ∧
    (∀ m' : Bits, m'.length = 4 →
      decodeBlock (List.zipWith xor (encodeBlock m) (encodeBlock m')) = some (List.zipWith xor m m'))

/-- The code tables: `G x HT` is the 4 x 3 zero matrix, the map from syndromes to positions is the printed one, and two
different codewords differ in at least three places (R113, R114, R1). -/
def Obligations.CodeTablesAreDualWithDistanceThree : Prop :=
  gf2Mul codeG codeHT = some ⟨4, 3, zeros 12⟩ ∧
  [[0, 0, 0], [0, 0, 1], [0, 1, 0], [0, 1, 1], [1, 0, 0], [1, 0, 1], [1, 1, 0], [1, 1, 1]].map
    (fun syn => errorPosition (bits syn)) = [none, some 6, some 5, some 1, some 4, some 2, some 3, some 0] ∧
  (∀ m m' : Bits, m.length = 4 → m'.length = 4 → m ≠ m' → 3 ≤ bitDist (encodeBlock m) (encodeBlock m'))

/-- `pad(q, n)` appends `(n - len mod n) mod n` zeros at the end; the length is the least multiple of `n` that is at
least the old one; it is `q` exactly when the length was a multiple (R150). -/
def Obligations.PadReachesTheLeastMultiple : Prop :=
  ∀ (q : Bits) (n : Nat), 1 ≤ n →
    padCount q.length n = (n - q.length % n) % n ∧ padCount q.length n < n ∧
    padTo q n = q ++ List.replicate (padCount q.length n) false ∧
    (padTo q n).length % n = 0 ∧
    (∀ l, q.length ≤ l → l % n = 0 → (padTo q n).length ≤ l) ∧
    (padTo q n = q ↔ q.length % n = 0)

/-- The two paddings: `p4` is 0 to 3, `p28` one of 0, 4, ..., 24; the encoded length is `7 * L28 / 4`, a multiple of 49;
the decoded length is `L28`, a multiple of 28, whatever was flipped (R151). -/
def Obligations.TwoStagePaddingLengths : Prop :=
  ∀ (q : Bits) (F : List Nat) (L4 L28 : Nat), L4 = q.length + padCount q.length 4 → L28 = L4 + padCount L4 28 →
    padCount q.length 4 ≤ 3 ∧ padCount L4 28 ∈ [0, 4, 8, 12, 16, 20, 24] ∧
    (encodeStream (padTo q 4)).length = 7 * L28 / 4 ∧ (7 * L28 / 4) % 49 = 0 ∧
    ∃ D, decodeStream (flipAt (encodeStream (padTo q 4)) F) = some D ∧ D.length = L28 ∧ L28 % 28 = 0

/-- Streams are coded block by block: encoding and decoding distribute over concatenation at block borders, and with no
errors decoding an encoded stream gives it back padded to 28 (R125, R138). -/
def Obligations.StreamsAreCodedBlockByBlock : Prop :=
  (∀ a b : Bits, a.length % 28 = 0 → b.length % 4 = 0 → encodeStream (a ++ b) = encodeStream a ++ encodeStream b) ∧
  (∀ a b : Bits, a.length % 7 = 0 → b.length % 7 = 0 →
    decodeStream (a ++ b) = (decodeStream a).bind fun x => (decodeStream b).map fun y => x ++ y) ∧
  (∀ q : Bits, q.length % 4 = 0 → decodeStream (encodeStream q) = some (padTo q 28))

/-- Exactly `k` positions differ between a stream and the stream flipped at an admissible set; with `k = 0` nothing
differs, with `k = len` every bit is inverted (R161). -/
def Obligations.NoiseFlipsExactlyKPositions : Prop :=
  ∀ (q : Bits) (k : Nat) (F : List Nat), FlipSet q.length k F →
    bitDist q (flipAt q F) = k ∧ (flipAt q F).length = q.length ∧
    (k = 0 → flipAt q F = q) ∧ (k = q.length → flipAt q F = q.map not)

/-- The draw of a NOISE or RUN is admissible whatever the random source answers, and every admissible set is the draw
for some answers (R163, R165). On the random-index port (R74) every request carries the stream's length as `rnd_bound`;
the draw is what the loop of R165 makes of the answers in order; a request is made exactly while fewer than `k`
indices are held, none for `k = 0`. That the first clause needs no fairness hypothesis is the model's form of a fair
source (log entries 3 and 4), the list of exchanges its form of the port (log entry 12). -/
def Obligations.DrawIsAnyAdmissibleFlipSet : Prop :=
  (∀ (s : State) (bound k : Nat), k ≤ bound → FlipSet bound k (s.drawSet bound k)) ∧
  (∀ (s : State) (bound k : Nat) (F : List Nat), bound ≤ 65535 → FlipSet bound k F →
    ∃ answers, State.drawSet { s with rndIn := answers } bound k = F) ∧
  (∀ (s : State) (bound k : Nat) (loop : List RndExchange → List Nat), bound ≤ 65535 → k ≤ bound →
    loop = List.foldl (fun X e => if e.idx.toNat < bound ∧ e.idx.toNat ∉ X then X ++ [e.idx.toNat] else X) [] →
    (∀ e ∈ s.drawExchanges bound k, e.bound.toNat = bound) ∧
    loop (s.drawExchanges bound k) = s.drawSet bound k ∧
    (∀ n, n < (s.drawExchanges bound k).length → (loop ((s.drawExchanges bound k).take n)).length < k) ∧
    (k = 0 → s.drawExchanges bound k = []))

/-- Two FLIPs at one index restore the stream, and FLIPs at the distinct indices of a set, one after another, equal one
flip of the whole set (R166, R160). -/
def Obligations.FlipsComposeToOneNoise : Prop :=
  (∀ (q : Bits) (i : Nat), flipAt (flipAt q [i]) [i] = q) ∧
  (∀ (q : Bits) (F : List Nat), F.Nodup → F.foldl (fun r i => flipAt r [i]) q = flipAt q F)

/-- RUN with at most one flip in every 7-bit block recovers the message and answers `(OK, 0)`; with two or more in a
block that carries only message bits it answers OK all the same, with a wrong message and a non-zero count (R181,
R226). `drawSet` is the model's form of the draw (log entry 3). -/
def Obligations.RunRecoversUpToOneFlipPerBlock : Prop :=
  ∀ (sd sa : BufId) (k el : Nat) (s : State), s.halted = false → s.CapOk →
    el = (encodeStream (padTo (s.buf sa) 4)).length → el ≤ s.cap → k ≤ el →
    ((∀ j, flipsInBlock (s.drawSet el k) j ≤ 1) →
      ∃ t, exec (.run sd sa k) s = .next t ∧ t.buf sd = s.buf sa ∧ t.rsp = some ⟨.ok, 0⟩ ∧ t.resid = 0) ∧
    ((∃ j, 4 * j + 4 ≤ (s.buf sa).length ∧ 2 ≤ flipsInBlock (s.drawSet el k) j) →
      ∃ t d, exec (.run sd sa k) s = .next t ∧ t.buf sd ≠ s.buf sa ∧ t.rsp = some ⟨.ok, d⟩ ∧ d ≠ 0 ∧ t.resid ≠ 0)

/-- RUN equals the pipeline built from single commands: PAD 4, ENC, NOISE, DEC, TRUNC to `L0`, CMP with the original,
each answering OK, leave the same recovered message and the same last response for the same draw. That response is OK
with the number of positions where the recovered message differs from the original (R177, R247).
That both use up the same answers, in `rndIn` and `rndCount`, is said of the model's form of the draw (log entry 3). -/
def Obligations.RunEqualsTheSingleCommands : Prop :=
  ∀ (sa b : BufId) (k : Nat) (s : State), s.halted = false → b ≠ sa →
    (encodeStream (padTo (s.buf sa) 4)).length ≤ s.cap → k ≤ (encodeStream (padTo (s.buf sa) 4)).length →
    ∃ t t1 t2 t3 t4 t5 t6, exec (.run b sa k) s = .next t ∧
      t.rsp = some ⟨.ok, BitVec.ofNat 32 (bitDist (s.buf sa) (t.buf b))⟩ ∧ (t.buf b).length = (s.buf sa).length ∧
      exec (.pad b sa 4) s = .next t1 ∧ exec (.enc b b) t1 = .next t2 ∧ exec (.noise b b k) t2 = .next t3 ∧
      exec (.dec b b) t3 = .next t4 ∧ exec (.trunc b b (s.buf sa).length) t4 = .next t5 ∧
      exec (.cmp sa b) t5 = .next t6 ∧
      (∀ u ∈ [t1, t2, t3, t4, t5, t6], ∃ d, u.rsp = some ⟨.ok, d⟩) ∧
      t6.buf b = t.buf b ∧ t6.rsp = t.rsp ∧ t6.rndIn = t.rndIn ∧ t6.rndCount = t.rndCount ∧ t6.halted = false

/-- What READ answers can be pushed back: with the same count and the low half of the data as literal the word is a
legal PUSH of exactly the bits read (R196). -/
def Obligations.ReadDataPushesBack : Prop :=
  ∀ (sd sa : BufId) (off cnt : Nat) (s t : State) (d : Word), s.halted = false → fitsCount cnt →
    exec (.read sa off cnt) s = .next t → t.rsp = some ⟨.ok, d⟩ →
    decode (BitVec.ofNat 32 (0x02000000 + sd.num * 2 ^ 22 + (cnt - 1) * 2 ^ 16 + d.toNat % 2 ^ 16)) =
      .ok (.push sd (slice (s.buf sa) off cnt))

/-- LOADBITS loads any sequence that fits: its words, run one after another from a running block, all answer OK and
leave exactly the sequence in the buffer and the other buffers as they were (R89). -/
def Obligations.LoadBitsLoadsTheSequence : Prop :=
  ∀ (sd : BufId) (q : Bits) (s : State), s.halted = false → q.length ≤ s.cap →
    (runWords ((loadBits sd q).map encode) s).2.buf sd = q ∧
    (∀ b, b ≠ sd → (runWords ((loadBits sd q).map encode) s).2.buf b = s.buf b) ∧
    (∀ r ∈ (runWords ((loadBits sd q).map encode) s).1, r.status = .ok) ∧
    (runWords ((loadBits sd q).map encode) s).1.length = 1 + (q.length + 15) / 16

/-- The text of every well-formed command, written as R88 writes commands, assembles to that command (R88). -/
def Obligations.AssembledTextReadsBack : Prop :=
  ∀ i : Instr, i.WellFormed → assembleLine (asmText i) = some [i]
end

