-- ==== Sys2Proof/Laws/State.lean ====
section
/-! SUPPORT. One lemma per field per update of the state, so that no later proof unfolds a record update. -/

namespace Sys2Proof.Machine

section Buffers

variable (s : State) (b c : BufId) (q : Bits)

@[simp] theorem buf_setBuf_same : (s.setBuf b q).buf b = q := by cases b <;> rfl

theorem buf_setBuf_ne (h : c ≠ b) : (s.setBuf b q).buf c = s.buf c := by
  cases b <;> cases c <;> first | rfl | exact absurd rfl h

theorem buf_setBuf : (s.setBuf b q).buf c = if c = b then q else s.buf c := by
  split
  · next h => rw [h, buf_setBuf_same]
  · next h => exact buf_setBuf_ne s b c q h

/-- Two states that agree on every buffer and on every other field are equal. -/
theorem setBuf_self : s.setBuf b (s.buf b) = s := by cases b <;> rfl

@[simp] theorem halted_setBuf : (s.setBuf b q).halted = s.halted := by cases b <;> rfl

@[simp] theorem cause_setBuf : (s.setBuf b q).cause = s.cause := by cases b <;> rfl

@[simp] theorem fcmd_setBuf : (s.setBuf b q).fcmd = s.fcmd := by cases b <;> rfl

@[simp] theorem total_setBuf : (s.setBuf b q).total = s.total := by cases b <;> rfl

@[simp] theorem padlen_setBuf : (s.setBuf b q).padlen = s.padlen := by cases b <;> rfl

@[simp] theorem flips_setBuf : (s.setBuf b q).flips = s.flips := by cases b <;> rfl

@[simp] theorem resid_setBuf : (s.setBuf b q).resid = s.resid := by cases b <;> rfl

@[simp] theorem enclen_setBuf : (s.setBuf b q).enclen = s.enclen := by cases b <;> rfl

@[simp] theorem cap_setBuf : (s.setBuf b q).cap = s.cap := by cases b <;> rfl

@[simp] theorem rsp_setBuf : (s.setBuf b q).rsp = s.rsp := by cases b <;> rfl

@[simp] theorem input_setBuf : (s.setBuf b q).input = s.input := by cases b <;> rfl

@[simp] theorem rndIn_setBuf : (s.setBuf b q).rndIn = s.rndIn := by cases b <;> rfl

@[simp] theorem rndCount_setBuf : (s.setBuf b q).rndCount = s.rndCount := by cases b <;> rfl

end Buffers

section Respond

variable (st : Status) (d : Word) (s : State) (b : BufId)

@[simp] theorem s0_respond : (respond st d s).s0 = s.s0 := rfl

@[simp] theorem s1_respond : (respond st d s).s1 = s.s1 := rfl

@[simp] theorem s2_respond : (respond st d s).s2 = s.s2 := rfl

@[simp] theorem s3_respond : (respond st d s).s3 = s.s3 := rfl

@[simp] theorem halted_respond : (respond st d s).halted = s.halted := rfl

@[simp] theorem cause_respond : (respond st d s).cause = s.cause := rfl

@[simp] theorem fcmd_respond : (respond st d s).fcmd = s.fcmd := rfl

@[simp] theorem total_respond : (respond st d s).total = s.total := rfl

@[simp] theorem padlen_respond : (respond st d s).padlen = s.padlen := rfl

@[simp] theorem flips_respond : (respond st d s).flips = s.flips := rfl

@[simp] theorem resid_respond : (respond st d s).resid = s.resid := rfl

@[simp] theorem enclen_respond : (respond st d s).enclen = s.enclen := rfl

@[simp] theorem cap_respond : (respond st d s).cap = s.cap := rfl

@[simp] theorem rsp_respond : (respond st d s).rsp = some ⟨st, d⟩ := rfl

@[simp] theorem input_respond : (respond st d s).input = s.input := rfl

@[simp] theorem rndIn_respond : (respond st d s).rndIn = s.rndIn := rfl

@[simp] theorem rndCount_respond : (respond st d s).rndCount = s.rndCount := rfl

@[simp] theorem buf_respond : (respond st d s).buf b = s.buf b := by cases b <;> rfl

end Respond

section Raise

variable (f : Status) (w : Word) (s : State) (b : BufId)

@[simp] theorem s0_raise : (raise f w s).s0 = s.s0 := rfl

@[simp] theorem s1_raise : (raise f w s).s1 = s.s1 := rfl

@[simp] theorem s2_raise : (raise f w s).s2 = s.s2 := rfl

@[simp] theorem s3_raise : (raise f w s).s3 = s.s3 := rfl

@[simp] theorem halted_raise : (raise f w s).halted = (s.halted || f.fatal) := rfl

@[simp] theorem cause_raise : (raise f w s).cause = f.code := rfl

@[simp] theorem fcmd_raise : (raise f w s).fcmd = w := rfl

@[simp] theorem total_raise : (raise f w s).total = s.total := rfl

@[simp] theorem padlen_raise : (raise f w s).padlen = s.padlen := rfl

@[simp] theorem flips_raise : (raise f w s).flips = s.flips := rfl

@[simp] theorem resid_raise : (raise f w s).resid = s.resid := rfl

@[simp] theorem enclen_raise : (raise f w s).enclen = s.enclen := rfl

@[simp] theorem cap_raise : (raise f w s).cap = s.cap := rfl

@[simp] theorem rsp_raise : (raise f w s).rsp = some ⟨f, 0⟩ := rfl

@[simp] theorem input_raise : (raise f w s).input = s.input := rfl

@[simp] theorem rndIn_raise : (raise f w s).rndIn = s.rndIn := rfl

@[simp] theorem rndCount_raise : (raise f w s).rndCount = s.rndCount := rfl

@[simp] theorem buf_raise : (raise f w s).buf b = s.buf b := by cases b <;> rfl

end Raise

section RefuseHalted

variable (s : State) (b : BufId)

@[simp] theorem s0_refuseHalted : (refuseHalted s).s0 = s.s0 := rfl

@[simp] theorem s1_refuseHalted : (refuseHalted s).s1 = s.s1 := rfl

@[simp] theorem s2_refuseHalted : (refuseHalted s).s2 = s.s2 := rfl

@[simp] theorem s3_refuseHalted : (refuseHalted s).s3 = s.s3 := rfl

@[simp] theorem halted_refuseHalted : (refuseHalted s).halted = s.halted := rfl

@[simp] theorem cause_refuseHalted : (refuseHalted s).cause = s.cause := rfl

@[simp] theorem fcmd_refuseHalted : (refuseHalted s).fcmd = s.fcmd := rfl

@[simp] theorem total_refuseHalted : (refuseHalted s).total = s.total := rfl

@[simp] theorem padlen_refuseHalted : (refuseHalted s).padlen = s.padlen := rfl

@[simp] theorem flips_refuseHalted : (refuseHalted s).flips = s.flips := rfl

@[simp] theorem resid_refuseHalted : (refuseHalted s).resid = s.resid := rfl

@[simp] theorem enclen_refuseHalted : (refuseHalted s).enclen = s.enclen := rfl

@[simp] theorem cap_refuseHalted : (refuseHalted s).cap = s.cap := rfl

@[simp] theorem rsp_refuseHalted : (refuseHalted s).rsp = some ⟨.halted, 0⟩ := rfl

@[simp] theorem input_refuseHalted : (refuseHalted s).input = s.input := rfl

@[simp] theorem rndIn_refuseHalted : (refuseHalted s).rndIn = s.rndIn := rfl

@[simp] theorem rndCount_refuseHalted : (refuseHalted s).rndCount = s.rndCount := rfl

@[simp] theorem buf_refuseHalted : (refuseHalted s).buf b = s.buf b := by cases b <;> rfl

end RefuseHalted

section TakeResponse

variable (s : State) (b : BufId)

@[simp] theorem s0_takeResponse : (takeResponse s).s0 = s.s0 := rfl

@[simp] theorem s1_takeResponse : (takeResponse s).s1 = s.s1 := rfl

@[simp] theorem s2_takeResponse : (takeResponse s).s2 = s.s2 := rfl

@[simp] theorem s3_takeResponse : (takeResponse s).s3 = s.s3 := rfl

@[simp] theorem halted_takeResponse : (takeResponse s).halted = s.halted := rfl

@[simp] theorem cause_takeResponse : (takeResponse s).cause = s.cause := rfl

@[simp] theorem fcmd_takeResponse : (takeResponse s).fcmd = s.fcmd := rfl

@[simp] theorem total_takeResponse : (takeResponse s).total = s.total := rfl

@[simp] theorem padlen_takeResponse : (takeResponse s).padlen = s.padlen := rfl

@[simp] theorem flips_takeResponse : (takeResponse s).flips = s.flips := rfl

@[simp] theorem resid_takeResponse : (takeResponse s).resid = s.resid := rfl

@[simp] theorem enclen_takeResponse : (takeResponse s).enclen = s.enclen := rfl

@[simp] theorem cap_takeResponse : (takeResponse s).cap = s.cap := rfl

@[simp] theorem rsp_takeResponse : (takeResponse s).rsp = none := rfl

@[simp] theorem input_takeResponse : (takeResponse s).input = s.input := rfl

@[simp] theorem rndIn_takeResponse : (takeResponse s).rndIn = s.rndIn := rfl

@[simp] theorem rndCount_takeResponse : (takeResponse s).rndCount = s.rndCount := rfl

@[simp] theorem buf_takeResponse : (takeResponse s).buf b = s.buf b := by cases b <;> rfl

end TakeResponse

section AfterDraw

variable (s : State) (bound k : Nat) (b : BufId)

@[simp] theorem s0_afterDraw : (s.afterDraw bound k).s0 = s.s0 := rfl

@[simp] theorem s1_afterDraw : (s.afterDraw bound k).s1 = s.s1 := rfl

@[simp] theorem s2_afterDraw : (s.afterDraw bound k).s2 = s.s2 := rfl

@[simp] theorem s3_afterDraw : (s.afterDraw bound k).s3 = s.s3 := rfl

@[simp] theorem halted_afterDraw : (s.afterDraw bound k).halted = s.halted := rfl

@[simp] theorem cause_afterDraw : (s.afterDraw bound k).cause = s.cause := rfl

@[simp] theorem fcmd_afterDraw : (s.afterDraw bound k).fcmd = s.fcmd := rfl

@[simp] theorem total_afterDraw : (s.afterDraw bound k).total = s.total := rfl

@[simp] theorem padlen_afterDraw : (s.afterDraw bound k).padlen = s.padlen := rfl

@[simp] theorem flips_afterDraw : (s.afterDraw bound k).flips = s.flips := rfl

@[simp] theorem resid_afterDraw : (s.afterDraw bound k).resid = s.resid := rfl

@[simp] theorem enclen_afterDraw : (s.afterDraw bound k).enclen = s.enclen := rfl

@[simp] theorem cap_afterDraw : (s.afterDraw bound k).cap = s.cap := rfl

@[simp] theorem rsp_afterDraw : (s.afterDraw bound k).rsp = s.rsp := rfl

@[simp] theorem input_afterDraw : (s.afterDraw bound k).input = s.input := rfl

@[simp] theorem rndIn_afterDraw : (s.afterDraw bound k).rndIn = s.rndIn.drop (s.rndIn.length - (s.injectedDraw bound k).2.length) := rfl

@[simp] theorem rndCount_afterDraw : (s.afterDraw bound k).rndCount = if rndReq k (s.injectedDraw bound k).1 then s.rndCount + 1 else s.rndCount := rfl

@[simp] theorem buf_afterDraw : (s.afterDraw bound k).buf b = s.buf b := by cases b <;> rfl

end AfterDraw

section SetReport

variable (s : State) (r : RunReport) (b : BufId)

@[simp] theorem s0_setReport : (s.setReport r).s0 = s.s0 := rfl

@[simp] theorem s1_setReport : (s.setReport r).s1 = s.s1 := rfl

@[simp] theorem s2_setReport : (s.setReport r).s2 = s.s2 := rfl

@[simp] theorem s3_setReport : (s.setReport r).s3 = s.s3 := rfl

@[simp] theorem halted_setReport : (s.setReport r).halted = s.halted := rfl

@[simp] theorem cause_setReport : (s.setReport r).cause = s.cause := rfl

@[simp] theorem fcmd_setReport : (s.setReport r).fcmd = s.fcmd := rfl

@[simp] theorem total_setReport : (s.setReport r).total = BitVec.ofNat 16 r.total := rfl

@[simp] theorem padlen_setReport : (s.setReport r).padlen = BitVec.ofNat 2 r.padlen := rfl

@[simp] theorem flips_setReport : (s.setReport r).flips = BitVec.ofNat 16 r.flips := rfl

@[simp] theorem resid_setReport : (s.setReport r).resid = BitVec.ofNat 16 r.resid := rfl

@[simp] theorem enclen_setReport : (s.setReport r).enclen = BitVec.ofNat 16 r.enclen := rfl

@[simp] theorem cap_setReport : (s.setReport r).cap = s.cap := rfl

@[simp] theorem rsp_setReport : (s.setReport r).rsp = s.rsp := rfl

@[simp] theorem input_setReport : (s.setReport r).input = s.input := rfl

@[simp] theorem rndIn_setReport : (s.setReport r).rndIn = s.rndIn := rfl

@[simp] theorem rndCount_setReport : (s.setReport r).rndCount = s.rndCount := rfl

@[simp] theorem buf_setReport : (s.setReport r).buf b = s.buf b := by cases b <;> rfl

end SetReport

section ApplyReset

variable (s : State) (b : BufId)

@[simp] theorem s0_applyReset : (applyReset s).s0 = [] := rfl

@[simp] theorem s1_applyReset : (applyReset s).s1 = [] := rfl

@[simp] theorem s2_applyReset : (applyReset s).s2 = [] := rfl

@[simp] theorem s3_applyReset : (applyReset s).s3 = [] := rfl

@[simp] theorem halted_applyReset : (applyReset s).halted = false := rfl

@[simp] theorem cause_applyReset : (applyReset s).cause = 0 := rfl

@[simp] theorem fcmd_applyReset : (applyReset s).fcmd = 0 := rfl

@[simp] theorem total_applyReset : (applyReset s).total = 0 := rfl

@[simp] theorem padlen_applyReset : (applyReset s).padlen = 0 := rfl

@[simp] theorem flips_applyReset : (applyReset s).flips = 0 := rfl

@[simp] theorem resid_applyReset : (applyReset s).resid = 0 := rfl

@[simp] theorem enclen_applyReset : (applyReset s).enclen = 0 := rfl

@[simp] theorem cap_applyReset : (applyReset s).cap = s.cap := rfl

@[simp] theorem rsp_applyReset : (applyReset s).rsp = none := rfl

@[simp] theorem input_applyReset : (applyReset s).input = s.input := rfl

@[simp] theorem rndIn_applyReset : (applyReset s).rndIn = s.rndIn := rfl

@[simp] theorem rndCount_applyReset : (applyReset s).rndCount = s.rndCount := rfl

end ApplyReset

@[simp] theorem buf_applyReset (s : State) (b : BufId) : (applyReset s).buf b = [] := by cases b <;> rfl

end Sys2Proof.Machine
end

