-- ==== Sys2Proof/Laws/Draw.lean ====
section
/-! SUPPORT. The selection loop of 45_noise_injector.md R165: what it keeps, and when it completes. -/

namespace Sys2Proof.Machine

/-! ## The draw sees nothing of the block but the random source -/

section Commute

variable (s : State) (b : BufId) (q : Bits) (st : Status) (d : Word) (bound k : Nat)

@[simp] theorem injectedDraw_respond : (respond st d s).injectedDraw bound k = s.injectedDraw bound k := rfl

@[simp] theorem injectedDraw_setBuf : (s.setBuf b q).injectedDraw bound k = s.injectedDraw bound k := by cases b <;> rfl

@[simp] theorem drawExchanges_respond : (respond st d s).drawExchanges bound k = s.drawExchanges bound k := rfl

@[simp] theorem drawExchanges_setBuf : (s.setBuf b q).drawExchanges bound k = s.drawExchanges bound k := by
  cases b <;> rfl

@[simp] theorem drawSet_respond : (respond st d s).drawSet bound k = s.drawSet bound k := rfl

@[simp] theorem drawSet_setBuf : (s.setBuf b q).drawSet bound k = s.drawSet bound k := by cases b <;> rfl

theorem afterDraw_respond : (respond st d s).afterDraw bound k = respond st d (s.afterDraw bound k) := rfl

theorem afterDraw_setBuf : (s.setBuf b q).afterDraw bound k = (s.afterDraw bound k).setBuf b q := by cases b <;> rfl

end Commute

/-! ## One answer -/

theorem rndReq_iff {k : Nat} {X : List Nat} : rndReq k X = true ↔ X.length < k := decide_eq_true_iff

theorem rndReq_eq_false_iff {k : Nat} {X : List Nat} : rndReq k X = false ↔ k ≤ X.length := by
  simp [rndReq]

@[simp] theorem rndReq_zero (X : List Nat) : rndReq 0 X = false := rfl

/-- An answer keeps the exclusion set a set of indices in range. -/
theorem acceptIndex_keeps {bound v : Nat} {X : List Nat} (hn : X.Nodup) (hb : ∀ x ∈ X, x < bound) :
    (acceptIndex bound X v).Nodup ∧ ∀ x ∈ acceptIndex bound X v, x < bound := by
  unfold acceptIndex
  split
  · next h =>
    refine ⟨?_, fun x hx => ?_⟩
    · rw [List.nodup_append]
      exact ⟨hn, by simp, fun a ha b hb' hab => h.2 (List.mem_singleton.mp hb' ▸ hab ▸ ha)⟩
    · obtain hx | hx := List.mem_append.mp hx
      · exact hb x hx
      · exact List.mem_singleton.mp hx ▸ h.1
  · exact ⟨hn, hb⟩

/-- An answer adds at most one index. -/
theorem length_acceptIndex_le (bound v : Nat) (X : List Nat) : (acceptIndex bound X v).length ≤ X.length + 1 := by
  unfold acceptIndex
  split <;> simp

/-- After an answer in range its index is chosen; what was chosen stays. -/
theorem mem_acceptIndex {bound v u : Nat} {X : List Nat} (hu : u < bound) (h : u ∈ X ∨ u = v) :
    u ∈ acceptIndex bound X v := by
  unfold acceptIndex
  split
  · simpa using h
  · next hv =>
    obtain h | rfl := h
    · exact h
    · exact not_not.mp fun hX => hv ⟨hu, hX⟩

theorem acceptIndex_of_fresh {bound v : Nat} {X : List Nat} (hv : v < bound) (h : v ∉ X) :
    acceptIndex bound X v = X ++ [v] := if_pos ⟨hv, h⟩

/-! ## The loop -/

/-- What the loop keeps: a list without repeats, in range, of at most `k` indices. -/
theorem selectLoop_keeps {bound k : Nat} {X vs : List Nat} (hn : X.Nodup) (hb : ∀ x ∈ X, x < bound)
    (hk : X.length ≤ k) :
    (selectLoop bound k X vs).1.Nodup ∧ (∀ x ∈ (selectLoop bound k X vs).1, x < bound) ∧
      (selectLoop bound k X vs).1.length ≤ k := by
  induction vs generalizing X with
  | nil => exact ⟨hn, hb, hk⟩
  | cons v vs ih =>
    simp only [selectLoop]
    split
    · next hr =>
      have ha := acceptIndex_keeps (v := v) hn hb
      exact ih ha.1 ha.2 (Nat.le_trans (length_acceptIndex_le ..) (rndReq_iff.mp hr))
    · exact ⟨hn, hb, hk⟩

/-- The loop completes when every index in range is already chosen or still to be offered. -/
theorem selectLoop_completes {bound k : Nat} {X vs : List Nat} (hk : k ≤ bound)
    (hall : ∀ v, v < bound → v ∈ X ∨ v ∈ vs) : k ≤ (selectLoop bound k X vs).1.length := by
  induction vs generalizing X with
  | nil =>
    have hsub : List.range bound ⊆ X := fun v hv => by
      simpa using hall v (List.mem_range.mp hv)
    have := (List.subperm_of_subset List.nodup_range hsub).length_le
    simp only [selectLoop]
    simp only [List.length_range] at this
    omega
  | cons v vs ih =>
    simp only [selectLoop]
    split
    · refine ih fun u hu => ?_
      have := hall u hu
      rw [List.mem_cons, ← or_assoc] at this
      exact this.imp_left (mem_acceptIndex hu)
    · next hr => exact rndReq_eq_false_iff.mp (Bool.not_eq_true _ ▸ hr)

/-- Answers that are all acceptable are all accepted, in order. -/
theorem selectLoop_accepts {bound : Nat} {X vs : List Nat} (hn : (X ++ vs).Nodup) (hb : ∀ v ∈ vs, v < bound) :
    selectLoop bound (X.length + vs.length) X vs = (X ++ vs, []) := by
  induction vs generalizing X with
  | nil => simp [selectLoop]
  | cons v vs ih =>
    have hv : v ∉ X := fun h => (List.nodup_append.mp hn).2.2 v h v (by simp) rfl
    have hlen : X.length + (v :: vs).length = (X ++ [v]).length + vs.length := by
      simp only [List.length_append, List.length_cons, List.length_nil]
      omega
    simp only [selectLoop]
    rw [if_pos (by simp [rndReq]), acceptIndex_of_fresh (hb v (by simp)) hv, hlen,
      ih (by simpa using hn) fun u hu => hb u (List.mem_cons_of_mem v hu)]
    simp

@[simp] theorem selectLoop_zero (bound : Nat) (X vs : List Nat) : selectLoop bound 0 X vs = (X, vs) := by
  cases vs <;> rfl

@[simp] theorem loopExchanges_zero (bound : Nat) (X vs : List Nat) : loopExchanges bound 0 X vs = [] := by
  cases vs <;> rfl

/-- The port shows one exchange for each answer the loop takes. -/
theorem length_loopExchanges (bound k : Nat) (X vs : List Nat) :
    (loopExchanges bound k X vs).length + (selectLoop bound k X vs).2.length = vs.length := by
  induction vs generalizing X with
  | nil => rfl
  | cons v vs ih =>
    simp only [loopExchanges, selectLoop]
    split
    · have := ih (acceptIndex bound X v)
      simp only [List.length_cons]
      omega
    · simp

/-- A loop that still asks has taken every answer. -/
theorem selectLoop_rest_of_rndReq {bound k : Nat} {X vs : List Nat}
    (h : rndReq k (selectLoop bound k X vs).1 = true) : (selectLoop bound k X vs).2 = [] := by
  induction vs generalizing X with
  | nil => rfl
  | cons v vs ih =>
    simp only [selectLoop] at h ⊢
    split at h
    · next hr =>
      rw [if_pos hr]
      exact ih h
    · next hr => exact absurd h hr

/-- A draw of no index asks for nothing: neither the injected answers nor the free source are used
(45_noise_injector.md R165). -/
theorem drawSet_zero (s : State) (bound : Nat) : s.drawSet bound 0 = [] := by
  simp [State.drawSet, State.injectedDraw]

theorem drawExchanges_zero (s : State) (bound : Nat) : s.drawExchanges bound 0 = [] := by
  simp [State.drawExchanges]

theorem afterDraw_zero (s : State) (bound : Nat) : s.afterDraw bound 0 = s := by
  simp [State.afterDraw, State.injectedDraw]

end Sys2Proof.Machine
end

