-- ==== Sys2Proof/Laws/Encoding.lean ====
section
/-! SUPPORT. Numbers and names, packed sequences, and the fields of the three formats. -/

namespace Sys2Proof

/-! ## Numbers and names -/

theorem BufId.num_lt (b : BufId) : b.num < 4 := by cases b <;> decide

@[simp] theorem BufId.num_mod (b : BufId) : b.num % 4 = b.num := by cases b <;> rfl

@[simp] theorem BufId.ofNum_num (b : BufId) : BufId.ofNum b.num = b := by cases b <;> rfl

theorem BufId.num_ofNum {n : Nat} (h : n < 4) : (BufId.ofNum n).num = n := by
  match n, h with
  | 0, _ | 1, _ | 2, _ | 3, _ => rfl

theorem SReg.num_lt (r : SReg) : r.num < 10 := by cases r <;> decide

@[simp] theorem SReg.ofNum?_num (r : SReg) : SReg.ofNum? r.num = some r := by cases r <;> rfl

theorem SReg.num_of_ofNum? {n : Nat} {r : SReg} (h : SReg.ofNum? n = some r) : r.num = n := by
  unfold SReg.ofNum? at h
  split at h <;> first | (cases h; rfl) | cases h

theorem Op.code_lt (op : Op) : op.code < 256 := by cases op <;> decide

@[simp] theorem Op.ofCode?_code (op : Op) : Op.ofCode? op.code = some op := by cases op <;> decide

theorem Op.code_of_ofCode? {n : Nat} {op : Op} (h : Op.ofCode? n = some op) : op.code = n := by
  simpa using List.find?_some h

/-! ## Packed sequences -/

theorem bitsVal_lt (q : Bits) : bitsVal q < 2 ^ q.length := by
  induction q with
  | nil => simp [bitsVal]
  | cons b q ih =>
    have hb := Nat.mul_le_mul_right (2 ^ q.length) (Bool.toNat_le b)
    simp only [bitsVal, List.length_cons, pow_succ]
    omega

@[simp] theorem length_valBits (n v : Nat) : (valBits n v).length = n := by
  induction n generalizing v with
  | zero => rfl
  | succ n ih => simp [valBits, ih]

/-- The bits of a number do not see what lies above them. -/
theorem valBits_bitsVal_add (q : Bits) (c : Nat) : valBits q.length (bitsVal q + c * 2 ^ q.length) = q := by
  induction q generalizing c with
  | nil => rfl
  | cons b q ih =>
    have e : bitsVal (b :: q) + c * 2 ^ (b :: q).length = bitsVal q + (b.toNat + 2 * c) * 2 ^ q.length := by
      simp only [bitsVal, List.length_cons, pow_succ]
      ring
    simp only [List.length_cons, valBits] at e ⊢
    rw [e, ih, Nat.add_mul_div_right _ _ (Nat.two_pow_pos _), Nat.div_eq_of_lt (bitsVal_lt q)]
    cases b <;> simp

theorem bitsVal_valBits (n v : Nat) : bitsVal (valBits n v) = v % 2 ^ n := by
  induction n with
  | zero => simp [valBits, bitsVal, Nat.mod_one]
  | succ n ih =>
    have h2 : v / 2 ^ n % 2 = 0 ∨ v / 2 ^ n % 2 = 1 := by omega
    have h := Nat.mod_pow_succ (b := 2) (k := n) (x := v)
    simp only [valBits, bitsVal, length_valBits, ih]
    obtain h0 | h1 := h2
    · rw [h, h0]
      simp
    · rw [h, h1]
      simp [Nat.add_comm]

theorem packLeft_lt {q : Bits} (h : q.length ≤ 16) : packLeft q < 65536 := by
  have h16 : 2 ^ q.length * 2 ^ (16 - q.length) = 2 ^ 16 := by
    rw [← pow_add, show q.length + (16 - q.length) = 16 by omega]
  calc packLeft q < 2 ^ q.length * 2 ^ (16 - q.length) :=
        Nat.mul_lt_mul_of_pos_right (bitsVal_lt q) (Nat.two_pow_pos _)
    _ = 65536 := h16

@[simp] theorem unpackLeft_packLeft (q : Bits) : unpackLeft q.length (packLeft q) = q := by
  rw [unpackLeft, packLeft, Nat.mul_div_cancel _ (Nat.two_pow_pos _)]
  simpa using valBits_bitsVal_add q 0

@[simp] theorem packLeft_mod (q : Bits) : packLeft q % 2 ^ (16 - q.length) = 0 := Nat.mul_mod_left _ _

/-- A literal read from a word with a zero tail packs back into that word's field. -/
theorem packLeft_unpackLeft {cnt imm : Nat} (hc : cnt ≤ 16) (hi : imm < 65536) (h0 : imm % 2 ^ (16 - cnt) = 0) :
    packLeft (unpackLeft cnt imm) = imm := by
  have h16 : 2 ^ cnt * 2 ^ (16 - cnt) = 65536 := by
    rw [← pow_add, show cnt + (16 - cnt) = 16 by omega]
    rfl
  have hd : imm / 2 ^ (16 - cnt) < 2 ^ cnt := by
    rw [Nat.div_lt_iff_lt_mul (Nat.two_pow_pos _), h16]
    exact hi
  rw [packLeft, unpackLeft, length_valBits, bitsVal_valBits, Nat.mod_eq_of_lt hd,
    Nat.div_mul_cancel (Nat.dvd_of_mod_eq_zero h0)]

/-! ## Fields of the formats -/

theorem toNat_formatR (op : Op) (sd sa sb imm : Nat) :
    (formatR op sd sa sb imm).toNat =
      op.code * 2 ^ 24 + sd % 4 * 2 ^ 22 + sa % 4 * 2 ^ 20 + sb % 4 * 2 ^ 18 + imm % 65536 := by
  have := op.code_lt
  simp only [formatR, BitVec.toNat_ofNat]
  omega

theorem toNat_formatL (op : Op) (sd sa cnt imm : Nat) :
    (formatL op sd sa cnt imm).toNat =
      op.code * 2 ^ 24 + sd % 4 * 2 ^ 22 + sa % 4 * 2 ^ 20 + (cnt - 1) % 16 * 2 ^ 16 + imm % 65536 := by
  have := op.code_lt
  simp only [formatL, BitVec.toNat_ofNat]
  omega

section FormatR

variable (op : Op) (sd sa sb imm : Nat)

@[simp] theorem formatR_op : field (formatR op sd sa sb imm) 31 24 = op.code := by
  have := op.code_lt
  simp only [field, toNat_formatR]
  omega

@[simp] theorem formatR_sd : field (formatR op sd sa sb imm) 23 22 = sd % 4 := by
  simp only [field, toNat_formatR]
  omega

@[simp] theorem formatR_sa : field (formatR op sd sa sb imm) 21 20 = sa % 4 := by
  simp only [field, toNat_formatR]
  omega

@[simp] theorem formatR_sb : field (formatR op sd sa sb imm) 19 18 = sb % 4 := by
  simp only [field, toNat_formatR]
  omega

@[simp] theorem formatR_z : field (formatR op sd sa sb imm) 17 16 = 0 := by
  simp only [field, toNat_formatR]
  omega

@[simp] theorem formatR_imm : field (formatR op sd sa sb imm) 15 0 = imm % 65536 := by
  simp only [field, toNat_formatR]
  omega

end FormatR

section FormatL

variable (op : Op) (sd sa cnt imm : Nat)

@[simp] theorem formatL_op : field (formatL op sd sa cnt imm) 31 24 = op.code := by
  have := op.code_lt
  simp only [field, toNat_formatL]
  omega

@[simp] theorem formatL_sd : field (formatL op sd sa cnt imm) 23 22 = sd % 4 := by
  simp only [field, toNat_formatL]
  omega

@[simp] theorem formatL_sa : field (formatL op sd sa cnt imm) 21 20 = sa % 4 := by
  simp only [field, toNat_formatL]
  omega

@[simp] theorem formatL_cm1 : field (formatL op sd sa cnt imm) 19 16 = (cnt - 1) % 16 := by
  simp only [field, toNat_formatL]
  omega

@[simp] theorem formatL_imm : field (formatL op sd sa cnt imm) 15 0 = imm % 65536 := by
  simp only [field, toNat_formatL]
  omega

end FormatL

section FormatM

variable (op : Op) (sd sa sb m n k p : Nat)

@[simp] theorem formatM_op : field (formatM op sd sa sb m n k p) 31 24 = op.code := formatR_op ..

@[simp] theorem formatM_sd : field (formatM op sd sa sb m n k p) 23 22 = sd % 4 := formatR_sd ..

@[simp] theorem formatM_sa : field (formatM op sd sa sb m n k p) 21 20 = sa % 4 := formatR_sa ..

@[simp] theorem formatM_sb : field (formatM op sd sa sb m n k p) 19 18 = sb % 4 := formatR_sb ..

@[simp] theorem formatM_z : field (formatM op sd sa sb m n k p) 17 16 = 0 := formatR_z ..

@[simp] theorem formatM_m : field (formatM op sd sa sb m n k p) 15 12 = m % 16 := by
  simp only [field, formatM, toNat_formatR]
  omega

@[simp] theorem formatM_n : field (formatM op sd sa sb m n k p) 11 8 = n % 16 := by
  simp only [field, formatM, toNat_formatR]
  omega

@[simp] theorem formatM_k : field (formatM op sd sa sb m n k p) 7 4 = k % 16 := by
  simp only [field, formatM, toNat_formatR]
  omega

@[simp] theorem formatM_p : field (formatM op sd sa sb m n k p) 3 0 = p % 16 := by
  simp only [field, formatM, toNat_formatR]
  omega

end FormatM

/-! ## The decoder -/

/-- A word with a known opcode and zero reserved fields decodes by its operands alone. -/
theorem decode_of_fields {w : Word} {op : Op} (hc : field w 31 24 = op.code)
    (hr : (op.reserved.all fun f => field w f.1 f.2 == 0) = true) : decode w = op.operands w := by
  unfold decode
  rw [hc, Op.ofCode?_code]
  simp only [hr, if_true]

/-- Everything a word that decodes to a command satisfies: its opcode is the command's, its reserved fields are zero, and
its operands give the command. -/
theorem decode_ok {w : Word} {i : Instr} (h : decode w = .ok i) :
    ∃ op : Op, field w 31 24 = op.code ∧ (∀ f ∈ op.reserved, field w f.1 f.2 = 0) ∧ op.operands w = .ok i := by
  unfold decode at h
  split at h
  · cases h
  · next op hop =>
    split at h
    · next hr =>
      exact ⟨op, (Op.code_of_ofCode? hop).symm, by simpa using hr, h⟩
    · cases h

end Sys2Proof
end

