-- ==== Sys2Proof/Laws/Ops.lean ====
section
/-! SUPPORT. What the shared operations do: one lemma for the frame every command runs in, and the small facts about
statuses. -/

namespace Sys2Proof.Machine

/-! ## Statuses -/

theorem recorded_of_fatal {st : Status} (h : st.fatal = true) : st.recorded = true := by
  cases st <;> first | rfl | cases h

theorem not_recorded_ok : Status.ok.recorded = false := rfl

theorem not_recorded_halted : Status.halted.recorded = false := rfl

theorem recorded_iff (st : Status) : st.recorded = true ↔ st ≠ .ok ∧ st ≠ .halted := by
  cases st <;> decide

/-! ## The frame of a command -/

theorem perform_halted (i : Instr) (s : State) (body : Except Status (State × Nat)) (h : s.halted = true) :
    perform i s body = .next (refuseHalted s) := by
  simp only [perform, h, if_true]

theorem perform_error (i : Instr) (s : State) (f : Status) (h : s.halted = false) :
    perform i s (.error f) = .next (raise f (encode i) s) := by
  simp [perform, h]

theorem perform_ok (i : Instr) (s t : State) (d : Nat) (h : s.halted = false) :
    perform i s (.ok (t, d)) = .next (respond .ok (BitVec.ofNat 32 d) t) := by
  simp [perform, h]

/-- Everything `perform` can answer: a refusal while halted, a fault's bookkeeping, or the body's state with an `OK`
response. -/
theorem perform_next {i : Instr} {s t : State} {body : Except Status (State × Nat)} (h : perform i s body = .next t) :
    (s.halted = true ∧ t = refuseHalted s) ∨
    (s.halted = false ∧ ∃ f, body = .error f ∧ t = raise f (encode i) s) ∨
    (s.halted = false ∧ ∃ u d, body = .ok (u, d) ∧ t = respond .ok (BitVec.ofNat 32 d) u) := by
  cases hh : s.halted with
  | true =>
    rw [perform_halted i s body hh] at h
    cases h
    exact .inl ⟨rfl, rfl⟩
  | false =>
    cases body with
    | error f =>
      rw [perform_error i s f hh] at h
      cases h
      exact .inr (.inl ⟨rfl, f, rfl, rfl⟩)
    | ok ud =>
      obtain ⟨u, d⟩ := ud
      rw [perform_ok i s u d hh] at h
      cases h
      exact .inr (.inr ⟨rfl, u, d, rfl, rfl⟩)

/-- `perform` never stops the machine. -/
theorem perform_total (i : Instr) (s : State) (body : Except Status (State × Nat)) :
    ∃ t, perform i s body = .next t := by
  unfold perform
  split
  · exact ⟨_, rfl⟩
  · split <;> exact ⟨_, rfl⟩

/-- Everything a word that is no command does. -/
theorem illegalWord_eq (w : Word) (s : State) :
    (s.halted = true ∧ illegalWord w s = refuseHalted s) ∨
    (s.halted = false ∧ illegalWord w s = raise .illegalCommand w s) := by
  cases h : s.halted <;> simp [illegalWord, h]

/-! ## Dispatch: the meaning each command runs -/

section Dispatch

variable (s : State)

theorem exec_clr (sd : BufId) : exec (.clr sd) s = execClr sd s := rfl

theorem exec_push (sd : BufId) (lit : Bits) : exec (.push sd lit) s = execPush sd lit s := rfl

theorem exec_mov (sd sa : BufId) : exec (.mov sd sa) s = execMov sd sa s := rfl

theorem exec_len (sa : BufId) : exec (.len sa) s = execLen sa s := rfl

theorem exec_read (sa : BufId) (off cnt : Nat) : exec (.read sa off cnt) s = execRead sa off cnt s := rfl

theorem exec_rdsr (idx : SReg) : exec (.rdsr idx) s = execRdsr idx s := rfl

theorem exec_mmul (sd sa sb : BufId) (m n k p : Nat) : exec (.mmul sd sa sb m n k p) s = execMmul sd sa sb m n k p s := rfl

theorem exec_ldg (sd : BufId) : exec (.ldg sd) s = execLdg sd s := rfl

theorem exec_ldht (sd : BufId) : exec (.ldht sd) s = execLdht sd s := rfl

theorem exec_encb (sd sa : BufId) : exec (.encb sd sa) s = execEncb sd sa s := rfl

theorem exec_enc (sd sa : BufId) : exec (.enc sd sa) s = execEnc sd sa s := rfl

theorem exec_decb (sd sa : BufId) : exec (.decb sd sa) s = execDecb sd sa s := rfl

theorem exec_dec (sd sa : BufId) : exec (.dec sd sa) s = execDec sd sa s := rfl

theorem exec_pad (sd sa : BufId) (v : Nat) : exec (.pad sd sa v) s = execPad sd sa v s := rfl

theorem exec_trunc (sd sa : BufId) (n : Nat) : exec (.trunc sd sa n) s = execTrunc sd sa n s := rfl

theorem exec_noise (sd sa : BufId) (k : Nat) : exec (.noise sd sa k) s = execNoise sd sa k s := rfl

theorem exec_flip (sd sa : BufId) (idx : Nat) : exec (.flip sd sa idx) s = execFlip sd sa idx s := rfl

theorem exec_run (sd sa : BufId) (k : Nat) : exec (.run sd sa k) s = execRun sd sa k s := rfl

theorem exec_cmp (sa sb : BufId) : exec (.cmp sa sb) s = execCmp sa sb s := rfl

end Dispatch

end Sys2Proof.Machine
end

