-- ==== Sys2Proof/Laws/Sequences.lean ====
section
/-! SUPPORT. The operations on bit sequences: lengths, and what stands at an index. -/

namespace Sys2Proof.Machine

@[simp] theorem length_zeros (n : Nat) : (zeros n).length = n := List.length_replicate

@[simp] theorem zeros_zero : zeros 0 = [] := rfl

/-! ## Flipping -/

@[simp] theorem length_flipFrom (F : List Nat) (i : Nat) (q : Bits) : (flipFrom F i q).length = q.length := by
  induction q generalizing i with
  | nil => rfl
  | cons b q ih => simp [flipFrom, ih]

@[simp] theorem length_flipAt (q : Bits) (F : List Nat) : (flipAt q F).length = q.length := length_flipFrom F 0 q

theorem getElem?_flipFrom (F : List Nat) (i j : Nat) (q : Bits) :
    (flipFrom F i q)[j]? = (q[j]?).map (· ^^ F.contains (i + j)) := by
  induction q generalizing i j with
  | nil => simp [flipFrom]
  | cons b q ih =>
    cases j with
    | zero => simp [flipFrom]
    | succ j => simp [flipFrom, ih, Nat.add_assoc, Nat.add_comm 1 j]

/-- The bit at an index after a flip: inverted exactly when the index is in the set. -/
theorem getElem?_flipAt (q : Bits) (F : List Nat) (j : Nat) :
    (flipAt q F)[j]? = (q[j]?).map (· ^^ F.contains j) := by
  rw [flipAt, getElem?_flipFrom, Nat.zero_add]

theorem flipFrom_append (F : List Nat) (i : Nat) (q r : Bits) :
    flipFrom F i (q ++ r) = flipFrom F i q ++ flipFrom F (i + q.length) r := by
  induction q generalizing i with
  | nil => rfl
  | cons b q ih => simp [flipFrom, ih, Nat.add_assoc, Nat.add_comm 1]

/-! ## Distance -/

@[simp] theorem bitDist_nil_left (q : Bits) : bitDist [] q = 0 := by cases q <;> rfl

@[simp] theorem bitDist_nil_right (q : Bits) : bitDist q [] = 0 := by cases q <;> rfl

@[simp] theorem bitDist_cons (a b : Bit) (q r : Bits) : bitDist (a :: q) (b :: r) = (a ^^ b).toNat + bitDist q r := rfl

@[simp] theorem bitDist_self (q : Bits) : bitDist q q = 0 := by
  induction q with
  | nil => rfl
  | cons a q ih => simp [ih]

theorem bitDist_le_length (q r : Bits) : bitDist q r ≤ q.length := by
  induction q generalizing r with
  | nil => simp
  | cons a q ih =>
    cases r with
    | nil => simp
    | cons b r =>
      have := ih r
      have := Bool.toNat_le (a ^^ b)
      simp only [bitDist_cons, List.length_cons]
      omega

/-! ## Padding -/

theorem padCount_lt (len : Nat) {n : Nat} (h : 1 ≤ n) : padCount len n < n := Nat.mod_lt _ h

theorem add_padCount_mod (len : Nat) {n : Nat} (h : 1 ≤ n) : (len + padCount len n) % n = 0 := by
  have hl : len % n < n := Nat.mod_lt _ h
  rw [padCount, Nat.add_mod_mod, Nat.add_mod]
  by_cases h0 : len % n = 0
  · simp [h0]
  · rw [Nat.mod_eq_of_lt (show n - len % n < n by omega), show len % n + (n - len % n) = n by omega, Nat.mod_self]

@[simp] theorem length_padTo (q : Bits) (n : Nat) : (padTo q n).length = q.length + padCount q.length n := by
  simp [padTo]

/-! ## Matrices and the code -/

theorem length_gf2Product (A B : BitMatrix) : (gf2Product A B).entries.length = A.rows * B.cols := by
  simp [gf2Product, List.length_flatMap]

@[simp] theorem length_encodeBlock (m : Bits) : (encodeBlock m).length = 7 := length_gf2Product _ _

theorem length_encodeBlocks (q : Bits) (h : q.length % 4 = 0) : (encodeBlocks q).length = 7 * q.length / 4 := by
  induction q using encodeBlocks.induct with
  | case1 m0 m1 m2 m3 q ih =>
    simp only [List.length_cons] at h
    have := ih (by omega)
    simp only [encodeBlocks, List.length_append, length_encodeBlock, List.length_cons]
    omega
  | case2 q hq =>
    match q, hq with
    | [], _ => rfl
    | [_], _ => simp at h
    | [_, _], _ => simp at h
    | [_, _, _], _ => simp at h
    | a :: b :: c :: d :: r, hq => exact absurd rfl (hq a b c d r)

theorem length_encodeStream (q : Bits) (h : q.length % 4 = 0) : (encodeStream q).length = encodedLength q.length := by
  have h28 := add_padCount_mod q.length (show 1 ≤ 28 by decide)
  rw [encodeStream, length_encodeBlocks, length_padTo, encodedLength]
  rw [length_padTo]
  omega

/-- Decoding a block gives 4 bits or meets the dead branch. -/
theorem length_decodeBlock {r m : Bits} (hr : r.length = 7) (h : decodeBlock r = some m) : m.length = 4 := by
  unfold decodeBlock at h
  split at h
  · cases h
    simp [hr]
  · split at h
    · cases h
      simp [hr]
    · cases h

/-- One step of the stream decoder: the first block and the rest. -/
theorem decodeStream_cons (r0 r1 r2 r3 r4 r5 r6 : Bit) (q : Bits) :
    decodeStream (r0 :: r1 :: r2 :: r3 :: r4 :: r5 :: r6 :: q) =
      (decodeBlock [r0, r1, r2, r3, r4, r5, r6]).bind fun m => (decodeStream q).map (m ++ ·) := by
  cases hm : decodeBlock [r0, r1, r2, r3, r4, r5, r6] <;> cases hq : decodeStream q <;> simp [decodeStream, hm, hq]

/-- A stream of whole blocks is empty or starts with a block. -/
theorem blocks_cases {q : Bits} (h : q.length % 7 = 0) :
    q = [] ∨ ∃ r0 r1 r2 r3 r4 r5 r6 r, q = r0 :: r1 :: r2 :: r3 :: r4 :: r5 :: r6 :: r ∧ r.length % 7 = 0 := by
  match q, h with
  | [], _ => exact .inl rfl
  | [_], h | [_, _], h | [_, _, _], h | [_, _, _, _], h | [_, _, _, _, _], h | [_, _, _, _, _, _], h => simp at h
  | a :: b :: c :: d :: e :: f :: g :: r, h =>
    refine .inr ⟨a, b, c, d, e, f, g, r, rfl, ?_⟩
    simp only [List.length_cons] at h
    omega

/-- Induction over the blocks of a received stream. -/
theorem blocks_induction {P : Bits → Prop} (nil : P [])
    (cons : ∀ r0 r1 r2 r3 r4 r5 r6 q, q.length % 7 = 0 → P q → P (r0 :: r1 :: r2 :: r3 :: r4 :: r5 :: r6 :: q))
    (q : Bits) (h : q.length % 7 = 0) : P q := by
  induction hn : q.length using Nat.strong_induction_on generalizing q with
  | _ n ih =>
    obtain rfl | ⟨r0, r1, r2, r3, r4, r5, r6, r, rfl, hr⟩ := blocks_cases h
    · exact nil
    · refine cons _ _ _ _ _ _ _ _ hr (ih _ ?_ _ hr rfl)
      simp only [List.length_cons] at hn
      omega

theorem length_decodeStream {q r : Bits} (h : q.length % 7 = 0) (hd : decodeStream q = some r) :
    r.length = 4 * q.length / 7 := by
  revert r
  refine blocks_induction (P := fun q => ∀ {r}, decodeStream q = some r → r.length = 4 * q.length / 7) ?_ ?_ q h
  · intro r hd
    cases hd
    rfl
  · intro r0 r1 r2 r3 r4 r5 r6 q hq ih r hd
    rw [decodeStream_cons] at hd
    simp only [Option.bind_eq_some_iff, Option.map_eq_some_iff] at hd
    obtain ⟨m, hm, ms, hms, rfl⟩ := hd
    have := ih hms
    simp only [List.length_append, List.length_cons, length_decodeBlock rfl hm]
    omega

/-! ## The pipeline -/

theorem encodedLength_eq (len : Nat) : encodedLength len = 49 * ((len + padCount len 28) / 28) := by
  have := add_padCount_mod len (show 1 ≤ 28 by decide)
  unfold encodedLength
  omega

theorem runLength_mod (len : Nat) : runLength len % 49 = 0 := by
  rw [runLength, encodedLength_eq]
  exact Nat.mul_mod_right 49 _

/-- The encoded stream of a message padded to 4 bits. -/
theorem length_encodeStream_padTo (q : Bits) : (encodeStream (padTo q 4)).length = runLength q.length := by
  have h := add_padCount_mod q.length (show 1 ≤ 4 by decide)
  rw [length_encodeStream _ (by rwa [length_padTo]), length_padTo, runLength]

/-- The message is no longer than the decoded stream. -/
theorem le_decodedLength (len : Nat) : len ≤ 4 * runLength len / 7 := by
  have := add_padCount_mod (len + padCount len 4) (show 1 ≤ 28 by decide)
  rw [runLength, encodedLength]
  omega

theorem le_runLength (len : Nat) : len ≤ runLength len := by
  have := le_decodedLength len
  omega

/-- The counts of a pipeline run, and the length of what it recovers (46_pipeline.md R176). -/
theorem runPipeline_counts {q : Bits} {k : Nat} {F : List Nat} {r : RunReport} (h : runPipeline q k F = some r) :
    r.total = q.length ∧ r.padlen = padCount q.length 4 ∧ r.flips = k ∧ r.resid = bitDist q r.recovered ∧
      r.enclen = runLength q.length ∧ r.recovered.length = q.length := by
  unfold runPipeline at h
  dsimp only at h
  split at h
  · cases h
  · next D hD =>
    cases h
    have hl := length_encodeStream_padTo q
    have h49 := runLength_mod q.length
    have hD' := length_decodeStream (by rw [length_flipAt, hl]; omega) hD
    rw [length_flipAt, hl] at hD'
    have := le_decodedLength q.length
    refine ⟨rfl, by simp, rfl, rfl, hl, ?_⟩
    simp only [List.length_take]
    omega

end Sys2Proof.Machine
end

