-- ==== Sys2Proof/Laws/Exec.lean ====
section
/-! SUPPORT. Everything a command can do to the state, said once: refuse while halted, record a fault, or answer `OK`
after one of a few changes. Frames and invariants follow from this without unfolding a meaning. -/

namespace Sys2Proof.Machine

/-! ## Requests on the random-index port -/

/-- A halted block asks for nothing. -/
theorem portExchanges_of_halted (i : Instr) {s : State} (h : s.halted = true) : portExchanges i s = [] := by
  cases i <;> simp [portExchanges, h]

/-- A command without a destination asks for nothing. -/
theorem portExchanges_of_dest_none {i : Instr} (s : State) (h : i.dest? = none) : portExchanges i s = [] := by
  cases i <;> first | rfl | cases h

/-- A command other than NOISE and RUN asks for nothing. -/
theorem portExchanges_of_op {i : Instr} (s : State) (h : i.op ≠ .noise ∧ i.op ≠ .run) : portExchanges i s = [] := by
  cases i <;> first | rfl | exact absurd rfl h.1 | exact absurd rfl h.2

theorem portExchanges_noise (sd : BufId) {sa : BufId} {k : Nat} {s : State} (hh : s.halted = false)
    (hk : k ≤ (s.buf sa).length) : portExchanges (.noise sd sa k) s = s.drawExchanges (s.buf sa).length k := by
  simp [portExchanges, hh, Nat.not_lt.mpr hk]

theorem portExchanges_run (sd : BufId) {sa : BufId} {k : Nat} {s : State} (hh : s.halted = false)
    (hc : runLength (s.buf sa).length ≤ s.cap) (hk : k ≤ runLength (s.buf sa).length) :
    portExchanges (.run sd sa k) s = s.drawExchanges (runLength (s.buf sa).length) k := by
  simp [portExchanges, hh, Nat.not_lt.mpr hk, Nat.not_lt.mpr hc]

/-! ## Outcomes -/

/-- What a successful command leaves before its response: the state itself, one buffer replaced (after a draw for
NOISE), or a RUN's effect. -/
inductive Effect (i : Instr) (s : State) : State → Prop where
  /-- LEN, READ, CMP, RDSR: nothing changes. -/
  | same (h : i.dest? = none) : Effect i s s
  /-- The destination buffer is replaced, by a sequence that fits if the capacity is legal and the buffers fit. -/
  | write (sd : BufId) (q : Bits) (h : i.dest? = some sd)
      (hq : s.CapOk → (∀ b, (s.buf b).length ≤ s.cap) → q.length ≤ s.cap)
      (hp : portExchanges i s = [] := by rfl) : Effect i s (s.setBuf sd q)
  /-- NOISE: random answers are taken, then the destination is replaced. -/
  | noise (sd sa : BufId) (k : Nat) (q : Bits) (h : i = .noise sd sa k) (hk : k ≤ (s.buf sa).length)
      (hq : q.length = (s.buf sa).length) :
      Effect i s ((s.afterDraw (s.buf sa).length k).setBuf sd q)
  /-- RUN: random answers are taken, the destination and the five result registers are written. -/
  | run (sd sa : BufId) (k : Nat) (r : RunReport) (h : i = .run sd sa k)
      (hc : runLength (s.buf sa).length ≤ s.cap) (hk : k ≤ runLength (s.buf sa).length)
      (hr : runPipeline (s.buf sa) k (s.drawSet (runLength (s.buf sa).length) k) = some r) :
      Effect i s (((s.afterDraw (runLength (s.buf sa).length) k).setBuf sd r.recovered).setReport r)

/-- The outcomes of a command. -/
inductive Outcomes (i : Instr) (s t : State) : Prop where
  /-- A halted block refuses every command but RDSR. -/
  | refused (hh : s.halted = true) (hi : i.op ≠ .rdsr) (ht : t = refuseHalted s)
  /-- A fault: its bookkeeping and nothing else. No index was asked for, unless the dead branch of the decoder comes
  after RUN's draw. -/
  | faulted (hh : s.halted = false) (f : Status) (hf : f.recorded = true)
      (hp : f ≠ .invariantViolation → portExchanges i s = []) (ht : t = raise f (encode i) s)
  /-- Success. -/
  | done (u : State) (d : Word) (hh : s.halted = false ∨ i.op = .rdsr) (he : Effect i s u) (ht : t = respond .ok d u)

theorem outcomes_of_perform {i : Instr} {s t : State} {body : Except Status (State × Nat)} (hi : i.op ≠ .rdsr)
    (hf : ∀ f, body = .error f → f.recorded = true) (ho : ∀ u d, body = .ok (u, d) → Effect i s u)
    (h : perform i s body = .next t)
    (hp : ∀ f, body = .error f → f ≠ .invariantViolation → portExchanges i s = [] := by intro _ _ _; rfl) :
    Outcomes i s t := by
  obtain ⟨hh, ht⟩ | ⟨hh, f, hb, ht⟩ | ⟨hh, u, d, hb, ht⟩ := perform_next h
  · exact .refused hh hi ht
  · exact .faulted hh f (hf f hb) (hp f hb) ht
  · exact .done u _ (.inl hh) (ho u d hb) ht

theorem exec_outcomes {i : Instr} {s t : State} (h : exec i s = .next t) : Outcomes i s t := by
  cases i with
  | rdsr idx =>
    cases h
    exact .done s _ (.inr rfl) (.same rfl) rfl
  | clr sd =>
    change execClr sd s = _ at h
    unfold execClr at h
    refine outcomes_of_perform (by simp [Instr.op]) (fun f hb => by cases hb) (fun u d hb => ?_) h
    cases hb
    exact .write _ _ rfl fun _ _ => Nat.zero_le _
  | mov sd sa =>
    change execMov sd sa s = _ at h
    unfold execMov at h
    refine outcomes_of_perform (by simp [Instr.op]) (fun f hb => by cases hb) (fun u d hb => ?_) h
    cases hb
    exact .write _ _ rfl fun _ hb => hb _
  | len sa =>
    change execLen sa s = _ at h
    unfold execLen at h
    refine outcomes_of_perform (by simp [Instr.op]) (fun f hb => by cases hb) (fun u d hb => ?_) h
    cases hb
    exact .same rfl
  | read sa _ _ | cmp sa _ =>
    refine outcomes_of_perform (by simp [Instr.op]) (fun f hb => ?_) (fun u d hb => ?_) h
    · split at hb <;> cases hb
      rfl
    · split at hb <;> cases hb
      exact .same rfl
  | push sd _ | ldg sd | ldht sd | encb sd _ | trunc sd sa _ =>
    refine outcomes_of_perform (by simp [Instr.op]) (fun f hb => ?_) (fun u d hb => ?_) h
    · split at hb <;> cases hb
      rfl
    · split at hb <;> cases hb
      refine .write _ _ rfl fun hc hb => ?_
      first
        | (simp only [List.length_append]; omega)
        | (simp only [length_encodeBlock]; omega)
        | exact le_trans (List.length_take_le' _ _) (hb _)
        | (simp only [codeG, codeHT, bits, List.length_map, List.length_cons, List.length_nil]; omega)
  | mmul sd sa sb m n k p =>
    refine outcomes_of_perform (by simp [Instr.op]) (fun f hb => ?_) (fun u d hb => ?_) h
    · repeat' split at hb
      all_goals cases hb
      all_goals rfl
    · unfold gf2Mul at hb
      repeat' split at hb
      all_goals cases hb
      next C hm _ ho =>
        split at hm <;> cases hm
        refine .write _ _ rfl fun _ _ => ?_
        rw [length_gf2Product]
        exact Nat.not_lt.mp ho
  | decb sd sa =>
    refine outcomes_of_perform (by simp [Instr.op]) (fun f hb => ?_) (fun u d hb => ?_) h
    · repeat' split at hb
      all_goals cases hb
      all_goals rfl
    · repeat' split at hb
      all_goals cases hb
      next hl _ m hm =>
        refine .write _ _ rfl fun hc _ => ?_
        rw [length_decodeBlock (not_not.mp hl) hm]
        omega
  | dec sd sa =>
    refine outcomes_of_perform (by simp [Instr.op]) (fun f hb => ?_) (fun u d hb => ?_) h
    · repeat' split at hb
      all_goals cases hb
      all_goals rfl
    · repeat' split at hb
      all_goals cases hb
      next hl _ q hq =>
        refine .write _ _ rfl fun _ hb => ?_
        rw [length_decodeStream (not_not.mp hl) hq]
        have := hb sa
        omega
  | enc sd sa =>
    refine outcomes_of_perform (by simp [Instr.op]) (fun f hb => ?_) (fun u d hb => ?_) h
    · dsimp only at hb
      repeat' split at hb
      all_goals cases hb
      all_goals rfl
    · dsimp only at hb
      repeat' split at hb
      all_goals cases hb
      next hl ho =>
        refine .write _ _ rfl fun _ _ => ?_
        rw [length_encodeStream _ (not_not.mp hl)]
        exact Nat.not_lt.mp ho
  | pad sd sa _ =>
    refine outcomes_of_perform (by simp [Instr.op]) (fun f hb => ?_) (fun u d hb => ?_) h
    · dsimp only at hb
      repeat' split at hb
      all_goals cases hb
      all_goals rfl
    · dsimp only at hb
      repeat' split at hb
      all_goals cases hb
      next _ ho =>
        refine .write _ _ rfl fun _ _ => ?_
        rw [length_padTo]
        exact Nat.not_lt.mp ho
  | flip sd sa _ =>
    refine outcomes_of_perform (by simp [Instr.op]) (fun f hb => ?_) (fun u d hb => ?_) h
    · dsimp only at hb
      split at hb <;> cases hb
      rfl
    · dsimp only at hb
      split at hb <;> cases hb
      exact .write _ _ rfl fun _ hb => by rw [length_flipAt]; exact hb _
  | noise sd sa k =>
    refine outcomes_of_perform (by simp [Instr.op]) (fun f hb => ?_) (fun u d hb => ?_) h (fun f hb hf => ?_)
    · dsimp only at hb
      split at hb <;> cases hb
      rfl
    · dsimp only at hb
      split at hb <;> cases hb
      next hk => exact .noise _ _ _ _ rfl (Nat.not_lt.mp hk) (length_flipAt _ _)
    · dsimp only at hb
      split at hb <;> cases hb
      next hk => simp [portExchanges, hk]
  | run sd sa k =>
    refine outcomes_of_perform (by simp [Instr.op]) (fun f hb => ?_) (fun u d hb => ?_) h (fun f hb hf => ?_)
    · dsimp only at hb
      repeat' split at hb
      all_goals cases hb
      all_goals rfl
    · dsimp only at hb
      repeat' split at hb
      all_goals cases hb
      rename_i hc hk r hr
      exact .run _ _ _ _ rfl (by omega) (by omega) hr
    · dsimp only at hb
      split at hb
      · next hc => simp [portExchanges, hc]
      · split at hb
        · next hk => simp [portExchanges, hk]
        · split at hb <;> cases hb
          exact absurd rfl hf

/-- A command always answers a next state. -/
theorem exec_total (i : Instr) (s : State) : ∃ t, exec i s = .next t := by
  cases i with
  | rdsr idx => exact ⟨_, rfl⟩
  | _ =>
    unfold exec
    exact perform_total _ _ _

end Sys2Proof.Machine
end

