-- ==== Sys2Proof/Laws/PerInstr.lean ====
section
/-! SUPPORT. Statements for all commands, made per constructor: the `op` field of a command's word is its opcode,
whatever the operands (no operand runs over into it). -/

namespace Sys2Proof.Laws.OpcodeField

/-- Bits 31:24 of the word hold the command's opcode (30_encoding.md R71 to R73, R79). -/
def Statement (i : Instr) : Prop := field (encode i) 31 24 = i.op.code

theorem clr (sd : BufId) : Statement (.clr sd) := formatR_op ..
theorem push (sd : BufId) (lit : Bits) : Statement (.push sd lit) := formatL_op ..
theorem mov (sd sa : BufId) : Statement (.mov sd sa) := formatR_op ..
theorem len (sa : BufId) : Statement (.len sa) := formatR_op ..
theorem read (sa : BufId) (off cnt : Nat) : Statement (.read sa off cnt) := formatL_op ..
theorem rdsr (idx : SReg) : Statement (.rdsr idx) := formatR_op ..
theorem mmul (sd sa sb : BufId) (m n k p : Nat) : Statement (.mmul sd sa sb m n k p) := formatR_op ..
theorem ldg (sd : BufId) : Statement (.ldg sd) := formatR_op ..
theorem ldht (sd : BufId) : Statement (.ldht sd) := formatR_op ..
theorem encb (sd sa : BufId) : Statement (.encb sd sa) := formatR_op ..
theorem enc (sd sa : BufId) : Statement (.enc sd sa) := formatR_op ..
theorem decb (sd sa : BufId) : Statement (.decb sd sa) := formatR_op ..
theorem dec (sd sa : BufId) : Statement (.dec sd sa) := formatR_op ..
theorem pad (sd sa : BufId) (multiple : Nat) : Statement (.pad sd sa multiple) := formatR_op ..
theorem trunc (sd sa : BufId) (n : Nat) : Statement (.trunc sd sa n) := formatR_op ..
theorem noise (sd sa : BufId) (k : Nat) : Statement (.noise sd sa k) := formatR_op ..
theorem flip (sd sa : BufId) (idx : Nat) : Statement (.flip sd sa idx) := formatR_op ..
theorem run (sd sa : BufId) (k : Nat) : Statement (.run sd sa k) := formatR_op ..
theorem cmp (sa sb : BufId) : Statement (.cmp sa sb) := formatR_op ..

end Sys2Proof.Laws.OpcodeField
end

