-- ==== Sys2Proof/Tests/Slice0.lean ====
section
/-! SUPPORT. Tests: ill-formed terms are refused, words decode as 95_test_vectors.md prints them, one step of each command
gives the printed result, and a witness for the hypotheses of every statement. Expected results are those of the
spec's worked examples and vectors (V1 to V14, P1 to P5), named at each test. -/

namespace Sys2Proof.Tests

open Sys2Proof.Machine

/-! ## Helpers -/

/-- A running block with the vectors' `CAP = 1024` and the given buffers. -/
def block (s0 s1 s2 s3 : Bits) : State := { State.reset with cap := 1024, s0 := s0, s1 := s1, s2 := s2, s3 := s3 }

/-- The least capacity, `CAP = 49`. -/
def small (s0 s1 : Bits) : State := { block s0 s1 [] [] with cap := 49 }

/-- The block halted by a ContractError of `ENCB S1, S0`. -/
def haltedBlock : State := { block [] [] [] [] with halted := true, cause := 9, fcmd := 0x30400000 }

/-- The state after a step that goes on, else the state before. -/
def after (s : State) : Out → State
  | .next t => t
  | .fault _ => s
  | .refused _ => s

/-- The response of an execution from `s`: status and data. -/
def reply (i : Instr) (s : State) : Option (Status × Nat) :=
  (after s (exec i s)).rsp.map fun r => (r.status, r.data.toNat)

/-- A buffer after an execution from `s`. -/
def result (i : Instr) (s : State) (b : BufId) : Bits := (after s (exec i s)).buf b

/-- The state after the host presents one word. -/
def present (w : Word) (s : State) : State := after s (step { s with input := [.command w] })

/-- The message and the encoded stream of V9. -/
def dogs : Bits := bits [1, 1, 0, 0, 1, 0, 0, 1, 1, 0, 1, 1, 1, 1, 1, 1, 0, 0, 1, 1, 1, 1, 1, 1, 0, 0, 1, 1]

def dogsEncoded : Bits :=
  bits [1, 1, 0, 0, 1, 0, 0, 1, 0, 0, 1, 0, 0, 1, 1, 0, 1, 1, 1, 0, 0, 1, 1, 1, 1, 1, 1, 1] ++
    bits [0, 0, 1, 1, 0, 1, 1, 1, 1, 1, 1, 1, 1, 1, 0, 0, 1, 1, 0, 1, 1]

/-- `10110` and `1010010`, the spec's usual examples. -/
def msg5 : Bits := bits [1, 0, 1, 1, 0]

def code7 : Bits := bits [1, 0, 1, 0, 0, 1, 0]

/-! ## WellFormed: an ill-formed term for each check (30_encoding.md R78, R84) -/

theorem test_wf_push_empty : (Instr.push .S0 []).wellFormed = false := by decide
theorem test_wf_push_long : (Instr.push .S0 (zeros 17)).wellFormed = false := by decide
theorem test_wf_read_off : (Instr.read .S0 65536 1).wellFormed = false := by decide
theorem test_wf_read_cnt0 : (Instr.read .S0 0 0).wellFormed = false := by decide
theorem test_wf_read_cnt17 : (Instr.read .S0 0 17).wellFormed = false := by decide
theorem test_wf_mmul_m : (Instr.mmul .S0 .S0 .S0 16 0 0 0).wellFormed = false := by decide
theorem test_wf_mmul_n : (Instr.mmul .S0 .S0 .S0 0 16 0 0).wellFormed = false := by decide
theorem test_wf_mmul_k : (Instr.mmul .S0 .S0 .S0 0 0 16 0).wellFormed = false := by decide
theorem test_wf_mmul_p : (Instr.mmul .S0 .S0 .S0 0 0 0 16).wellFormed = false := by decide
theorem test_wf_pad_zero : (Instr.pad .S0 .S0 0).wellFormed = false := by decide
theorem test_wf_pad_large : (Instr.pad .S0 .S0 65536).wellFormed = false := by decide
theorem test_wf_trunc : (Instr.trunc .S0 .S0 65536).wellFormed = false := by decide
theorem test_wf_noise : (Instr.noise .S0 .S0 65536).wellFormed = false := by decide
theorem test_wf_flip : (Instr.flip .S0 .S0 65536).wellFormed = false := by decide
theorem test_wf_run : (Instr.run .S0 .S0 65536).wellFormed = false := by decide

/-! ## Decoding (V13, and words built bit by bit from R71 to R73) -/

/-- Format R, field by field: `op` 0x71 (CMP), `sd` 00, `sa` 10, `sb` 11, `z` 00, `imm16` 0. -/
theorem test_decode_cmp_bits : decode 0b01110001_00_10_11_00_0000000000000000 = .ok (.cmp .S2 .S3) := by decide

/-- Format L: `op` 0x02 (PUSH), `sd` 01, `sa` 00, `cm1` 0010, literal 110 then 13 zeros. -/
theorem test_decode_push_bits :
    decode 0b00000010_01_00_0010_1100000000000000 = .ok (.push .S1 (bits [1, 1, 0])) := by decide

/-- Format L: `op` 0x05 (READ), `sd` 00, `sa` 11, `cm1` 1111, `off` 0x8001. -/
theorem test_decode_read_bits : decode 0b00000101_00_11_1111_1000000000000001 = .ok (.read .S3 32769 16) := by decide

/-- Format M: `op` 0x10 (MMUL), `sd` 11, `sa` 01, `sb` 10, `z` 00, dimensions 1, 2, 4, 8. -/
theorem test_decode_mmul_bits :
    decode 0b00010000_11_01_10_00_0001_0010_0100_1000 = .ok (.mmul .S3 .S1 .S2 1 2 4 8) := by decide

/-- Format R: `op` 0x20 (LDG), `sd` 10. -/
theorem test_decode_ldg_bits : decode 0b00100000_10_00_00_00_0000000000000000 = .ok (.ldg .S2) := by decide

/-- Format R: `op` 0x31 (ENC), `sd` 01, `sa` 10. -/
theorem test_decode_enc_bits : decode 0b00110001_01_10_00_00_0000000000000000 = .ok (.enc .S1 .S2) := by decide

/-- Format R: `op` 0x41 (DEC), `sd` 10, `sa` 01. -/
theorem test_decode_dec_bits : decode 0b01000001_10_01_00_00_0000000000000000 = .ok (.dec .S2 .S1) := by decide

/-- Format R: `op` 0x50 (PAD), `sd` 00, `sa` 01, multiple 28. -/
theorem test_decode_pad_bits : decode 0b01010000_00_01_00_00_0000000000011100 = .ok (.pad .S0 .S1 28) := by decide

/-- Format R: `op` 0x61 (FLIP), `sd` 11, `sa` 00, index 258. -/
theorem test_decode_flip_bits : decode 0b01100001_11_00_00_00_0000000100000010 = .ok (.flip .S3 .S0 258) := by decide

/-- Format R: `op` 0x70 (RUN), `sd` 01, `sa` 00, count 3 (P3, line 3). -/
theorem test_decode_run_bits : decode 0b01110000_01_00_00_00_0000000000000011 = .ok (.run .S1 .S0 3) := by decide

/-- The illegal words of V13, and why. -/
theorem test_decode_illegal :
    [0x00000000, 0xFFFFFFFF, 0x07000000].map decode = List.replicate 3 (.error .unassignedOp) ∧
    [0x01100000, 0x01000001, 0x30410000, 0x30440000, 0x0213A000, 0x06400000, 0x05400000, 0x714C0000, 0x710C0001,
      0x10871447].map decode = List.replicate 10 (.error .reservedField) ∧
    decode 0x0203A800 = .error .pushTail ∧ decode 0x50400000 = .error .padZero ∧
    decode 0x0600000A = .error .noRegister := by decide

theorem test_decode_table_word : decodeTableWord 32 0x51F0001C = some (.trunc .S3 .S3 28) := by decide

/-! ## One step of each command -/

/-- V12. -/
theorem test_clr : result (.clr .S0) (block msg5 [] [] []) .S0 = [] ∧
    reply (.clr .S0) (block msg5 [] [] []) = some (.ok, 0) := by decide

/-- V12: the old content, then the literal. -/
theorem test_push : result (.push .S0 [false]) (block (bits [1, 0, 1, 0]) [] [] []) .S0 = bits [1, 0, 1, 0, 0] ∧
    reply (.push .S0 [false]) (block (bits [1, 0, 1, 0]) [] [] []) = some (.ok, 5) := by decide

/-- V12: 48 bits and 2 more with `CAP = 49`, and 1 more. -/
theorem test_push_overflow : reply (.push .S0 [true, true]) (small (zeros 48) []) = some (.overflow, 0) ∧
    reply (.push .S0 [true]) (small (zeros 48) []) = some (.ok, 49) := by decide

/-- V12. -/
theorem test_mov : result (.mov .S3 .S0) (block (bits [1, 0, 1, 0]) [] [] []) .S3 = bits [1, 0, 1, 0] ∧
    reply (.mov .S3 .S0) (block (bits [1, 0, 1, 0]) [] [] []) = some (.ok, 4) := by decide

/-- V12. -/
theorem test_len : reply (.len .S1) (block [] code7 [] []) = some (.ok, 7) := by decide

/-- V12: bits at `data[15:9]`, and at `data[15:13]`. -/
theorem test_read : reply (.read .S1 0 7) (block [] code7 [] []) = some (.ok, 0xA400) ∧
    reply (.read .S1 4 3) (block [] code7 [] []) = some (.ok, 0x4000) := by decide

/-- V12. -/
theorem test_read_bounds : reply (.read .S1 6 2) (block [] code7 [] []) = some (.boundsError, 0) ∧
    reply (.read .S0 0 1) (block [] code7 [] []) = some (.boundsError, 0) := by decide

/-- V12. -/
theorem test_rdsr : reply (.rdsr .ID) State.reset = some (.ok, 0x07040001) ∧
    reply (.rdsr .CAP) (block [] [] [] []) = some (.ok, 0x400) := by decide

/-- V14: RDSR executes while halted. -/
theorem test_rdsr_halted : reply (.rdsr .FCMD) haltedBlock = some (.ok, 0x30400000) := by decide

/-- V1: 2 x 2 by 2 x 3. -/
theorem test_mmul :
    result (.mmul .S2 .S0 .S1 2 2 2 3) (block (bits [1, 1, 0, 1]) (bits [1, 0, 1, 1, 1, 0]) [] []) .S2 =
      bits [0, 1, 1, 1, 1, 0] ∧
    reply (.mmul .S2 .S0 .S1 2 2 2 3) (block (bits [1, 1, 0, 1]) (bits [1, 0, 1, 1, 1, 0]) [] []) = some (.ok, 6) := by
  decide

/-- V1: inner dimension 0; mismatch before wrong lengths; wrong length; the large result on `CAP = 49`. -/
theorem test_mmul_corners : result (.mmul .S2 .S0 .S1 2 0 0 3) (block [] [] [] []) .S2 = zeros 6 ∧
    reply (.mmul .S2 .S0 .S1 1 4 3 7) (block msg5 [] [] []) = some (.shapeMismatch, 0) ∧
    reply (.mmul .S2 .S0 .S1 1 4 4 7) (block msg5 codeG.entries [] []) = some (.lengthError, 0) ∧
    reply (.mmul .S2 .S0 .S1 15 0 0 15) (small [] []) = some (.overflow, 0) := by decide

/-- V12. -/
theorem test_ldg : result (.ldg .S1) (block [] [] [] []) .S1 =
    bits [1, 0, 0, 0, 1, 1, 1, 0, 1, 0, 0, 0, 1, 1, 0, 0, 1, 0, 1, 0, 1, 0, 0, 0, 1, 1, 1, 0] := by decide

/-- V12. -/
theorem test_ldht : result (.ldht .S1) (block [] [] [] []) .S1 =
    bits [1, 1, 1, 0, 1, 1, 1, 0, 1, 1, 1, 0, 1, 0, 0, 0, 1, 0, 0, 0, 1] := by decide

/-- P1, line 3; V2. -/
theorem test_encb : result (.encb .S1 .S0) (block (bits [1, 0, 1, 0]) [] [] []) .S1 = code7 ∧
    reply (.encb .S1 .S0) (block (bits [1, 0, 1, 0]) [] [] []) = some (.ok, 7) := by decide

/-- V14: a block of the wrong length halts. -/
theorem test_encb_contract : (present 0x30400000 (block (zeros 8) [] [] [])).halted = true ∧
    (present 0x30400000 (block (zeros 8) [] [] [])).cause = 9 ∧
    (present 0x30400000 (block (zeros 8) [] [] [])).fcmd = 0x30400000 := by decide

/-- V9. -/
theorem test_enc : result (.enc .S1 .S0) (block dogs [] [] []) .S1 = dogsEncoded := by decide +kernel

/-- V8. -/
theorem test_enc_faults : reply (.enc .S1 .S0) (block msg5 [] [] []) = some (.lengthError, 0) ∧
    reply (.enc .S1 .S0) (small (zeros 32) []) = some (.overflow, 0) ∧
    reply (.enc .S1 .S0) (small (zeros 28) []) = some (.ok, 49) ∧
    reply (.enc .S1 .S0) (block [] [] [] []) = some (.ok, 0) := by decide +kernel

/-- P1, line 5; V4: `0x07` decodes to 8. -/
theorem test_decb : result (.decb .S3 .S2) (block [] [] (bits [1, 0, 1, 0, 1, 1, 0]) []) .S3 = bits [1, 0, 1, 0] ∧
    result (.decb .S3 .S2) (block [] [] (bits [0, 0, 0, 0, 1, 1, 1]) []) .S3 = bits [1, 0, 0, 0] := by decide

/-- V5: flips 1 and 2 of `1010010` decode to `1101`, with status OK. -/
theorem test_decb_two_errors :
    result (.decb .S3 .S2) (block [] [] (bits [1, 1, 0, 0, 0, 1, 0]) []) .S3 = bits [1, 1, 0, 1] ∧
    reply (.decb .S3 .S2) (block [] [] (bits [1, 1, 0, 0, 0, 1, 0]) []) = some (.ok, 4) := by decide

/-- V8. -/
theorem test_dec :
    result (.dec .S1 .S0) (block (bits [1, 0, 1, 1, 1, 0, 0, 0, 0, 0, 1, 0, 0, 0]) [] [] []) .S1 =
      bits [1, 0, 1, 1, 0, 0, 0, 0] ∧
    reply (.dec .S1 .S0) (block (zeros 8) [] [] []) = some (.lengthError, 0) := by decide

/-- V6. -/
theorem test_pad : result (.pad .S0 .S0 4) (block msg5 [] [] []) .S0 = bits [1, 0, 1, 1, 0, 0, 0, 0] ∧
    reply (.pad .S0 .S0 4) (block msg5 [] [] []) = some (.ok, 3) ∧
    reply (.pad .S0 .S0 28) (block (zeros 29) [] [] []) = some (.ok, 27) := by decide

/-- V6. -/
theorem test_pad_overflow : reply (.pad .S0 .S0 65535) (block (zeros 3) [] [] []) = some (.overflow, 0) := by
  decide

/-- V8. -/
theorem test_trunc : result (.trunc .S3 .S2 5) (block [] [] (msg5 ++ zeros 23) []) .S3 = msg5 ∧
    reply (.trunc .S3 .S2 6) (block [] [] msg5 []) = some (.boundsError, 0) := by decide

/-- V10, the port-level example: answers 4, 4, 9, 0, 4, 6 for three flips of 7 bits; all six are taken. -/
theorem test_noise_draw :
    let s := { block code7 [] [] [] with rndIn := [4, 4, 9, 0, 4, 6] }
    s.drawSet 7 3 = [4, 0, 6] ∧ result (.noise .S1 .S0 3) s .S1 = bits [0, 0, 1, 0, 1, 1, 1] ∧
      (after s (exec (.noise .S1 .S0 3) s)).rndIn = [] := by decide

/-- V10: more flips than bits, nothing is drawn; the port-level example's six requests with `rnd_bound` 7, the seventh
answer not asked for; no request for no flip. -/
theorem test_noise_port :
    let s := { block code7 [] [] [] with rndIn := [4, 4, 9, 0, 4, 6, 1] }
    reply (.noise .S1 .S0 8) s = some (.rangeError, 0) ∧ (after s (exec (.noise .S1 .S0 8) s)).rndIn = s.rndIn ∧
      portExchanges (.noise .S1 .S0 8) s = [] ∧ portExchanges (.noise .S1 .S0 0) s = [] ∧
      portExchanges (.noise .S1 .S0 3) s = ([4, 4, 9, 0, 4, 6] : List (BitVec 16)).map (⟨7, ·⟩) := by decide

/-- V10. -/
theorem test_flip : result (.flip .S2 .S1 4) (block [] code7 [] []) .S2 = bits [1, 0, 1, 0, 1, 1, 0] ∧
    reply (.flip .S2 .S1 7) (block [] code7 [] []) = some (.boundsError, 0) := by decide

/-- V11, second row: counts, recovered message and response. -/
theorem test_run :
    let s := { block msg5 [] [] [] with rndIn := [3, 10, 47] }
    let t := after s (exec (.run .S1 .S0 3) s)
    t.s1 = msg5 ∧ t.rsp = some ⟨.ok, 0⟩ ∧ t.total = 5 ∧ t.padlen = 3 ∧ t.flips = 3 ∧ t.resid = 0 ∧ t.enclen = 49 := by
  decide +kernel

/-- V11: two flips in a block with a message bit (fourth row); Overflow before RangeError (last row). -/
theorem test_run_corners :
    result (.run .S1 .S0 2) { block msg5 [] [] [] with rndIn := [7, 8] } .S1 = bits [1, 0, 1, 1, 1] ∧
    reply (.run .S1 .S0 2) { block msg5 [] [] [] with rndIn := [7, 8] } = some (.ok, 1) ∧
    reply (.run .S1 .S0 65535) (small (zeros 29) []) = some (.overflow, 0) ∧
    reply (.run .S1 .S0 50) (block msg5 [] [] []) = some (.rangeError, 0) := by decide +kernel

/-- V12. -/
theorem test_cmp : reply (.cmp .S0 .S3) (block (bits [1, 0, 1, 0]) [] [] (bits [0, 1, 1, 0])) = some (.ok, 2) ∧
    reply (.cmp .S0 .S1) (block (bits [1, 0, 1, 0]) code7 [] []) = some (.lengthError, 0) := by decide

/-- 30_encoding.md R88, R89. -/
theorem test_assemble :
    assemble "LOADBITS S0, 0b10000000000000011 ; seventeen\nPAD4 S1, S0\n\nRDSR 6\nTRUNC S3, S1, 0x1F".toList =
      some [.clr .S0, .push .S0 (true :: zeros 14 ++ [true]), .push .S0 [true], .pad .S1 .S0 4, .rdsr .RESID,
        .trunc .S3 .S1 31] := by decide

theorem test_assemble_refuses :
    assembleLine "PAD S0, S1, 0".toList = none ∧ assembleLine "PUSH S0, 0b".toList = none ∧
      assembleLine "RDSR 10".toList = none ∧ assembleLine "CLR S4".toList = none := by decide

/-- The first word after reset runs, whatever the capacity (10_state.md R35, 70_reset_and_hazards.md R241). -/
theorem test_first_step :
    (after State.reset (step (State.reset.withFetchWord 32 0x0203A000))).s0 = bits [1, 0, 1, 0] ∧
    (after State.reset (step (State.reset.withFetchWord 32 0x20400000))).rsp = some ⟨.ok, 28⟩ := by decide

/-! ## Witnesses: concrete inputs that meet all the hypotheses of a statement together, for each of its clauses -/

/-- Operands at the ends of their ranges. -/
theorem witness_CommandWordsAreThoseOfTheirRules :
    fitsImm 65535 ∧ fitsCount 16 ∧ fitsImm 0 ∧ fitsDim 15 ∧ fitsDim 0 ∧ fitsDim 15 ∧ fitsDim 0 ∧
      fitsCount (zeros 16).length := by decide

/-- One command of each shape, operands at the ends of their ranges. -/
theorem witness_DecodeOfEncodeIsTheCommand :
    ([.clr .S3, .push .S0 [true], .push .S3 (zeros 16), .mov .S1 .S2, .len .S3, .read .S3 65535 16, .read .S0 0 1, .rdsr .ID,
      .mmul .S3 .S2 .S1 15 0 15 0, .ldg .S1, .ldht .S1, .encb .S1 .S0, .enc .S1 .S1, .decb .S3 .S2, .dec .S3 .S3,
      .pad .S0 .S1 1, .pad .S0 .S1 65535, .trunc .S0 .S1 65535, .noise .S0 .S1 0, .flip .S0 .S1 65535,
      .run .S0 .S1 65535, .cmp .S2 .S3] : List Instr).all Instr.wellFormed = true := by decide

theorem witness_EncodeOfDecodeIsTheWord : decode 0x020FFFFF = .ok (.push .S0 (List.replicate 16 true)) := by decide

theorem witness_UnassignedOpcodeIsAnsweredIllegal :
    let s := { block msg5 [] [] [] with input := [.command 0xFFFFFFFF] }
    s.input = [.command 0xFFFFFFFF] ∧ s.halted = false ∧
      field 0xFFFFFFFF 31 24 ∉ [0x01, 0x02, 0x03, 0x04, 0x05, 0x06, 0x10, 0x20, 0x21, 0x30, 0x31, 0x40, 0x41, 0x50,
        0x51, 0x60, 0x61, 0x70, 0x71] := by decide

/-- A word for each arm. -/
theorem witness_UnusedFieldsAreZeroInEveryCommand :
    decode 0x01C00000 = .ok (.clr .S3) ∧ decode 0x20400000 = .ok (.ldg .S1) ∧ decode 0x21400000 = .ok (.ldht .S1) ∧
    decode 0x0203A000 = .ok (.push .S0 (bits [1, 0, 1, 0])) ∧ decode 0x03C00000 = .ok (.mov .S3 .S0) ∧
    decode 0x30400000 = .ok (.encb .S1 .S0) ∧ decode 0x31400000 = .ok (.enc .S1 .S0) ∧
    decode 0x40E00000 = .ok (.decb .S3 .S2) ∧ decode 0x41E00000 = .ok (.dec .S3 .S2) ∧
    decode 0x04100000 = .ok (.len .S1) ∧ decode 0x05120004 = .ok (.read .S1 4 3) ∧
    decode 0x06000000 = .ok (.rdsr .STATE) ∧ decode 0x10841447 = .ok (.mmul .S2 .S0 .S1 1 4 4 7) ∧
    decode 0x50400004 = .ok (.pad .S1 .S0 4) ∧ decode 0x51F0001C = .ok (.trunc .S3 .S3 28) ∧
    decode 0x60900005 = .ok (.noise .S2 .S1 5) ∧ decode 0x61900004 = .ok (.flip .S2 .S1 4) ∧
    decode 0x70400003 = .ok (.run .S1 .S0 3) ∧ decode 0x71180000 = .ok (.cmp .S1 .S2) := by decide

/-- Each clause at the boundary: a PUSH of 16 bits (no tail) and of 1 bit, PAD 1, RDSR 9. -/
theorem witness_PushTailPadZeroAndHighRegistersAreIllegal :
    (decode 0x020FFFFF = .ok (.push .S0 (List.replicate 16 true)) ∧ field 0x020FFFFF 31 24 = 0x02) ∧
    (decode 0x02008000 = .ok (.push .S0 [true]) ∧ field 0x02008000 31 24 = 0x02) ∧
    (decode 0x50400001 = .ok (.pad .S1 .S0 1) ∧ field 0x50400001 31 24 = 0x50) ∧
    (decode 0x06000009 = .ok (.rdsr .ID) ∧ field 0x06000009 31 24 = 0x06) := by decide

theorem witness_StepRunsTheDecodedCommand :
    let s := { block msg5 [] [] [] with input := [.command 0x50000004, .reset], rsp := some ⟨.ok, 5⟩ }
    s.input = .command 0x50000004 :: [.reset] ∧ decode 0x50000004 = .ok (.pad .S0 .S0 4) := by decide

theorem witness_UndecodableWordIsIllegalCommand :
    let s := { block msg5 [] [] [] with input := [.command 0x50400000] }
    s.input = [.command 0x50400000] ∧ s.halted = false ∧ decode 0x50400000 = .error .padZero := by decide

/-- A legal RDSR, a legal other word, an illegal word, and the reset that leaves the state. -/
theorem witness_HaltedBlockAnswersHaltedOnly :
    (∃ s : State, s.input = [.command 0x06000001] ∧ s.halted = true ∧ decode 0x06000001 = .ok (.rdsr .CAUSE)) ∧
    (∃ s : State, s.input = [.command 0x50400004] ∧ s.halted = true ∧ ∀ r, decode 0x50400004 ≠ .ok (.rdsr r)) ∧
    (∃ s : State, s.input = [.command 0x0600000A] ∧ s.halted = true ∧ ∀ r, decode 0x0600000A ≠ .ok (.rdsr r)) ∧
    (∃ s t : State, step s = .next t ∧ s.halted = true ∧ t.halted = false) :=
  ⟨⟨{ haltedBlock with input := [.command 0x06000001] }, rfl, rfl, by decide⟩,
    ⟨{ haltedBlock with input := [.command 0x50400004] }, rfl, rfl, by
      intro r; rw [show decode 0x50400004 = .ok (.pad .S1 .S0 4) by decide]; intro h; cases h⟩,
    ⟨{ haltedBlock with input := [.command 0x0600000A] }, rfl, rfl, by
      intro r; rw [show decode 0x0600000A = .error .noRegister by decide]; intro h; cases h⟩,
    ⟨{ haltedBlock with input := [.reset] }, _, rfl, rfl, rfl⟩⟩

/-- The halted block answers, as V14 prints. -/
theorem test_halted : (present 0x50400004 haltedBlock).rsp = some ⟨.halted, 0⟩ ∧
    (present 0x0600000A haltedBlock).rsp = some ⟨.halted, 0⟩ ∧ (present 0x0600000A haltedBlock).cause = 9 := by decide

theorem witness_ResetLeavesTheResetValues :
    { haltedBlock with input := [.reset, .command 0] }.input = .reset :: [.command 0] ∧ SReg.FCMD ≠ .CAP ∧
      SReg.FCMD ≠ .ID := by decide

theorem witness_BetweenCommandsNothingChanges :
    { block msg5 [] [] [] with input := [.takeResponse], rsp := some ⟨.ok, 5⟩ }.input = [.takeResponse] ∧
    (block msg5 [] [] []).input = [] := by decide

theorem witness_EveryWordGetsOneResponse :
    { haltedBlock with input := [.command 0xFFFFFFFF] }.input = [.command 0xFFFFFFFF] := by decide

/-- A recoverable fault, a fatal one and an illegal word. -/
theorem witness_FaultBookkeepingIsExact :
    (∃ (s t : State) (r : Response), s.input = [.command 0x31400000] ∧ step s = .next t ∧ t.rsp = some r ∧
      r.status ≠ .ok ∧ r.status ≠ .halted) ∧
    (∃ (s t : State) (r : Response), s.input = [.command 0x30400000] ∧ step s = .next t ∧ t.rsp = some r ∧
      r.status ≠ .ok ∧ r.status ≠ .halted) ∧
    (∃ (s t : State) (r : Response), s.input = [.command 0] ∧ step s = .next t ∧ t.rsp = some r ∧
      r.status ≠ .ok ∧ r.status ≠ .halted) :=
  ⟨⟨{ block msg5 [] [] [] with input := [.command 0x31400000] }, _, ⟨.lengthError, 0⟩, rfl, rfl, rfl, by decide, by decide⟩,
    ⟨{ block msg5 [] [] [] with input := [.command 0x30400000] }, _, ⟨.contractError, 0⟩, rfl, rfl, rfl, by decide, by decide⟩,
    ⟨{ block msg5 [] [] [] with input := [.command 0] }, _, ⟨.illegalCommand, 0⟩, rfl, rfl, rfl, by decide, by decide⟩⟩

/-- A recorded fault, a success after a fault, a refusal. -/
theorem witness_CauseAndFcmdAreSticky :
    (∃ (s t : State) (r : Response), s.input = [.command 0x31400000] ∧ step s = .next t ∧ t.rsp = some r ∧
      r.status.code ∈ [1, 2, 3, 4, 5, 8, 9, 10]) ∧
    (∃ (s t : State) (r : Response), s.input = [.command 0x50000004] ∧ s.cause = 2 ∧ step s = .next t ∧ t.rsp = some r ∧
      r.status = .ok) ∧
    (∃ (s t : State) (r : Response), s.input = [.command 0x50000004] ∧ step s = .next t ∧ t.rsp = some r ∧
      r.status = .halted) :=
  ⟨⟨{ block msg5 [] [] [] with input := [.command 0x31400000] }, _, ⟨.lengthError, 0⟩, rfl, rfl, rfl, by decide⟩,
    ⟨{ block msg5 [] [] [] with input := [.command 0x50000004], cause := 2 }, _, ⟨.ok, 3⟩, rfl, rfl, rfl, rfl, rfl⟩,
    ⟨{ haltedBlock with input := [.command 0x50000004] }, _, ⟨.halted, 0⟩, rfl, rfl, rfl, rfl⟩⟩

/-- A command that ends in a fatal fault, and one that ends in OK. -/
theorem witness_HaltedIsSetByFatalFaultsOnly :
    (∃ (s t : State), s.input = [.command 0x10841437] ∧ step s = .next t ∧ t.rsp = some ⟨.shapeMismatch, 0⟩) ∧
    (∃ (s t : State), s.input = [.command 0x01000000] ∧ step s = .next t ∧ t.rsp = some ⟨.ok, 0⟩) :=
  ⟨⟨{ block [] [] [] [] with input := [.command 0x10841437] }, _, rfl, rfl, rfl⟩,
    ⟨{ block msg5 [] [] [] with input := [.command 0x01000000] }, _, rfl, rfl, rfl⟩⟩

/-- A success that writes S1 and a fault, each seen from another buffer. -/
theorem witness_CommandsChangeOnlyWhatTheyName :
    (∃ (t : State) (r : Response), exec (.mov .S1 .S0) (block msg5 code7 [] []) = .next t ∧ t.rsp = some r ∧
      (Instr.mov .S1 .S0).dest? ≠ some .S0 ∧ (Instr.mov .S1 .S0).op ≠ .run ∧ (Instr.mov .S1 .S0).op ≠ .noise ∧
      r.status = .ok) ∧
    (∃ (t : State) (r : Response), exec (.run .S1 .S0 50) (block msg5 code7 [] []) = .next t ∧ t.rsp = some r ∧
      (Instr.run .S1 .S0 50).dest? ≠ some .S0 ∧ r.status ≠ .ok) :=
  ⟨⟨_, ⟨.ok, 5⟩, rfl, rfl, by decide, by decide, by decide, rfl⟩,
    ⟨_, ⟨.rangeError, 0⟩, rfl, rfl, by decide, by decide⟩⟩

/-- Both clauses, at the least capacity. -/
theorem witness_StatusesAreThoseOfTheTable :
    (∃ (t : State) (r : Response), (Instr.push .S0 [true, true]).WellFormed ∧ (small (zeros 48) []).CapOk ∧
      exec (.push .S0 [true, true]) (small (zeros 48) []) = .next t ∧ t.rsp = some r) ∧
    ({ haltedBlock with rsp := some ⟨.halted, 0⟩ }.rsp = some ⟨.halted, 0⟩) ∧
    Status.overflow ∈ canFault .push ∧ Status.shapeMismatch ∈ canFault .mmul ∧ Status.rangeError ∈ canFault .run :=
  ⟨⟨_, ⟨.overflow, 0⟩, by decide, by decide, rfl, rfl⟩, rfl, by decide⟩

theorem witness_InvariantViolationIsUnreachable :
    ((bits [0, 0, 1]).length = 3 ∧ bits [0, 0, 1] ≠ zeros 3) ∧
    (∃ (s t : State) (r : Response), s.input = [.command 0x40E00000] ∧ step s = .next t ∧ t.rsp = some r) :=
  ⟨by decide,
    ⟨{ block [] [] (bits [1, 0, 1, 0, 1, 1, 0]) [] with input := [.command 0x40E00000] }, _, ⟨.ok, 4⟩, rfl, rfl, rfl⟩⟩

/-- Two states that agree on what FLIP reads and differ elsewhere. -/
theorem witness_ResultDependsOnNamedSourcesOnly :
    ∃ (s s' t t' : State) (r : Response), s ≠ s' ∧ (∀ b ∈ (Instr.flip .S2 .S1 4).sources, s.buf b = s'.buf b) ∧
      s.halted = s'.halted ∧ s.cap = s'.cap ∧ s.rndIn = s'.rndIn ∧ s.rndCount = s'.rndCount ∧
      exec (.flip .S2 .S1 4) s = .next t ∧ exec (.flip .S2 .S1 4) s' = .next t' ∧ t.rsp = some r ∧
      (Instr.flip .S2 .S1 4).op ≠ .rdsr ∧ r.status = .ok ∧ (Instr.flip .S2 .S1 4).dest? = some .S2 :=
  ⟨block [] code7 [] [], { block msg5 code7 dogs [] with cause := 3 }, _, _, ⟨.ok, 7⟩, by decide, by decide, rfl, rfl, rfl,
    rfl, rfl, rfl, rfl, by decide, rfl, rfl⟩

/-- A full buffer at the least capacity, and a halted block. -/
theorem witness_EveryStepKeepsTheInvariant :
    (∃ s t : State, s.Inv ∧ s.input = [.command 0x02008000] ∧ step s = .next t) ∧
    (∃ s t : State, s.Inv ∧ s.halted = true ∧ step s = .next t) :=
  ⟨⟨{ small (zeros 49) [] with input := [.command 0x02008000] }, _, by decide, rfl, rfl⟩,
    ⟨{ haltedBlock with input := [.command 0x70400003] }, _, by decide, rfl, rfl⟩⟩

theorem witness_CapacityAndIdentityNeverChange :
    ∃ s t : State, s.input = [.reset] ∧ step s = .next t :=
  ⟨{ haltedBlock with input := [.reset] }, _, rfl, rfl⟩

theorem witness_ClrAndMovComplete : (block msg5 [] [] []).halted = false := by decide

/-- The result exactly fills the buffer. -/
theorem witness_PushCompletesWithinCapacity :
    (small (zeros 48) []).halted = false ∧ ((small (zeros 48) []).buf .S0).length + [true].length ≤ 49 := by decide

theorem witness_LenAndCmpComplete :
    (block msg5 msg5 [] []).halted = false ∧
      ((block msg5 msg5 [] []).buf .S0).length = ((block msg5 msg5 [] []).buf .S1).length := by decide

/-- The last bit of the stream. -/
theorem witness_ReadCompletesInsideTheStream :
    (block code7 [] [] []).halted = false ∧ fitsCount 1 ∧ 6 + 1 ≤ ((block code7 [] [] []).buf .S0).length := by decide

/-- Ordinary shapes, and an inner dimension of 0. -/
theorem witness_MmulCompletesOnMatchingShapes :
    (let s := block (bits [1, 1, 0, 1]) (bits [1, 0, 1, 1, 1, 0]) [] []
     s.halted = false ∧ (s.buf .S0).length = 2 * 2 ∧ (s.buf .S1).length = 2 * 3 ∧ 2 * 3 ≤ s.cap ∧ 1 < 2 ∧ 2 < 3) ∧
    (let s := block [] [] [] []
     s.halted = false ∧ (s.buf .S0).length = 2 * 0 ∧ (s.buf .S1).length = 0 * 3 ∧ 2 * 3 ≤ s.cap) := by decide

theorem witness_TableLoadsComplete : (small [] []).halted = false ∧ (small [] []).CapOk := by decide

theorem witness_EncbCompletesOnFourBits :
    (block (bits [1, 0, 1, 0]) [] [] []).halted = false ∧
      (block (bits [1, 0, 1, 0]) [] [] []).buf .S0 = [true, false, true, false] := by decide

/-- The longest stream the least capacity takes. -/
theorem witness_EncCompletesBlockByBlock :
    let s := small (zeros 28) []
    s.halted = false ∧ (s.buf .S0).length % 4 = 0 ∧
      7 * ((s.buf .S0).length + padCount (s.buf .S0).length 28) / 4 ≤ s.cap ∧ 7 * 6 < 49 := by decide

theorem witness_DecbCompletesOnSevenBits :
    (block code7 [] [] []).halted = false ∧
      (block code7 [] [] []).buf .S0 = [true, false, true, false, false, true, false] := by decide

theorem witness_DecCompletesBlockByBlock :
    let s := block (code7 ++ code7) [] [] []
    s.halted = false ∧ (s.buf .S0).length % 7 = 0 ∧ 7 * 1 < (s.buf .S0).length := by decide

/-- The padded stream exactly fills the buffer. -/
theorem witness_PadCompletesWithinCapacity :
    let s := small (zeros 47) []
    s.halted = false ∧ 1 ≤ 7 ∧ 2 = (7 - (s.buf .S0).length % 7) % 7 ∧ (s.buf .S0).length + 2 ≤ s.cap := by decide

theorem witness_TruncCompletesInsideTheStream :
    (block msg5 [] [] []).halted = false ∧ 5 ≤ ((block msg5 [] [] []).buf .S0).length := by decide

/-- Every bit flipped; no bit flipped of no bit. -/
theorem witness_NoiseCompletesOnAnAdmissibleSet :
    ((block code7 [] [] []).halted = false ∧ 7 = ((block code7 [] [] []).buf .S0).length ∧ 7 ≤ 7) ∧
    (0 = ((block code7 [] [] []).buf .S1).length ∧ 0 ≤ 0) := by decide

theorem witness_FlipCompletesInsideTheStream :
    (block code7 [] [] []).halted = false ∧ 6 < ((block code7 [] [] []).buf .S0).length := by decide

/-- Every bit of the encoded stream flipped, at the least capacity. -/
theorem witness_RunCompletesWithItsCounts :
    let s := small (zeros 28) []
    s.halted = false ∧ zeros 28 = s.buf .S0 ∧ 49 = (encodeStream (padTo (zeros 28) 4)).length ∧ 49 ≤ s.cap ∧ 49 ≤ 49 := by
  decide +kernel

/-- Each clause: ENC of 5 bits, DEC of 8, CMP of 5 and 8, MMUL of 5 bits declared 1 x 4. -/
theorem witness_LengthErrorIsRaised :
    let s := block msg5 (zeros 8) [] []
    s.halted = false ∧ (s.buf .S0).length % 4 ≠ 0 ∧ (s.buf .S1).length % 7 ≠ 0 ∧
      (s.buf .S0).length ≠ (s.buf .S1).length ∧
      ((s.buf .S0).length ≠ 1 * 4 ∨ (s.buf .S1).length ≠ 4 * 2) := by decide

/-- Each clause, one above the limit. -/
theorem witness_RangeErrorIsRaised :
    let s := small msg5 []
    s.halted = false ∧ 6 > (s.buf .S0).length ∧ (encodeStream (padTo (s.buf .S0) 4)).length ≤ s.cap ∧
      50 > (encodeStream (padTo (s.buf .S0) 4)).length := by decide +kernel

/-- Each clause, one above the limit. -/
theorem witness_BoundsErrorIsRaised :
    let s := block code7 [] [] []
    s.halted = false ∧ 6 + 2 > (s.buf .S0).length ∧ 7 ≥ (s.buf .S0).length ∧ 8 > (s.buf .S0).length := by decide

/-- Each clause at the least capacity. -/
theorem witness_OverflowIsRaised :
    let s := small (zeros 48) (zeros 32)
    s.halted = false ∧ (s.buf .S0).length + [true, true].length > s.cap ∧
      (1 ≤ 28 ∧ (padTo (s.buf .S0) 28).length > s.cap) ∧
      ((s.buf .S1).length % 4 = 0 ∧ (encodeStream (s.buf .S1)).length > s.cap) ∧
      (encodeStream (padTo (s.buf .S0) 4)).length > s.cap ∧
      ((s.buf .S2).length = 15 * 0 ∧ (s.buf .S2).length = 0 * 15 ∧ 15 * 15 > s.cap) := by decide +kernel

theorem witness_ShapeMismatchIsRaised : (block [] [] [] []).halted = false ∧ 4 ≠ 3 := by decide

/-- Lengths next to the right ones. -/
theorem witness_ContractErrorIsRaised :
    let s := block (zeros 3) (zeros 5) (zeros 6) (zeros 8)
    s.halted = false ∧ (s.buf .S0).length ≠ 4 ∧ (s.buf .S1).length ≠ 4 ∧ (s.buf .S2).length ≠ 7 ∧
      (s.buf .S3).length ≠ 7 := by decide

theorem witness_CodewordBitsAndLinearity :
    (bits [1, 0, 1, 0]).length = 4 ∧ (bits [1, 1, 1, 1]).length = 4 := by decide

theorem witness_SyndromeBitsAndLinearity :
    code7.length = 7 ∧ (zeros 7).length = 7 ∧ (bits [1, 0, 1, 0]).length = 4 ∧ 6 < 7 := by decide

theorem witness_DecodeBlockGuaranteeAndLimit :
    (bits [1, 0, 1, 0]).length = 4 ∧ 6 < 7 ∧ code7.length = 7 ∧ (0 < 6 ∧ 6 < 7) ∧ (bits [1, 1, 1, 1]).length = 4 := by
  decide

theorem witness_CodeTablesAreDualWithDistanceThree :
    (bits [1, 0, 1, 0]).length = 4 ∧ (bits [1, 0, 1, 1]).length = 4 ∧ bits [1, 0, 1, 0] ≠ bits [1, 0, 1, 1] := by decide

theorem witness_PadReachesTheLeastMultiple : 1 ≤ 4 ∧ msg5.length ≤ 8 ∧ 8 % 4 = 0 := by decide

theorem witness_TwoStagePaddingLengths :
    8 = msg5.length + padCount msg5.length 4 ∧ 28 = 8 + padCount 8 28 := by decide

/-- Each clause. -/
theorem witness_StreamsAreCodedBlockByBlock :
    ((zeros 28).length % 28 = 0 ∧ (zeros 4).length % 4 = 0) ∧ (code7.length % 7 = 0 ∧ (zeros 14).length % 7 = 0) ∧
      (zeros 8).length % 4 = 0 := by decide

/-- Each clause: some flips, none, all. -/
theorem witness_NoiseFlipsExactlyKPositions :
    FlipSet code7.length 2 [0, 6] ∧ FlipSet code7.length 0 [] ∧
      (FlipSet code7.length 7 [0, 1, 2, 3, 4, 5, 6] ∧ 7 = code7.length) := by decide

/-- Each clause at a boundary, the longest stream included, and an exchange to speak of. -/
theorem witness_DrawIsAnyAdmissibleFlipSet :
    7 ≤ 7 ∧ (65535 ≤ 65535 ∧ FlipSet 65535 2 [65534, 0]) ∧ (7 ≤ 65535 ∧ 3 ≤ 7) ∧
      5 < (State.drawExchanges { block code7 [] [] [] with rndIn := [4, 4, 9, 0, 4, 6] } 7 3).length := by decide

theorem witness_FlipsComposeToOneNoise : [4, 0, 6].Nodup := by decide

/-- A draw of one flip a block, and one of two flips in block 0. -/
theorem witness_RunRecoversUpToOneFlipPerBlock :
    (let s := { block msg5 [] [] [] with rndIn := [3, 10, 47] }
     s.halted = false ∧ s.CapOk ∧ 49 = (encodeStream (padTo (s.buf .S0) 4)).length ∧ 49 ≤ s.cap ∧ 3 ≤ 49 ∧
       ∀ j, flipsInBlock (s.drawSet 49 3) j ≤ 1) ∧
    (let s := { block msg5 [] [] [] with rndIn := [0, 2] }
     s.halted = false ∧ s.CapOk ∧ 49 = (encodeStream (padTo (s.buf .S0) 4)).length ∧ 49 ≤ s.cap ∧ 2 ≤ 49 ∧
       ∃ j, 4 * j + 4 ≤ (s.buf .S0).length ∧ 2 ≤ flipsInBlock (s.drawSet 49 2) j) := by
  refine ⟨⟨by decide, by decide, by decide +kernel, by decide, by decide, fun j => ?_⟩,
    ⟨by decide, by decide, by decide +kernel, by decide, by decide, 0, by decide, by decide +kernel⟩⟩
  rw [show State.drawSet { block msg5 [] [] [] with rndIn := [3, 10, 47] } 49 3 = [3, 10, 47] by decide +kernel]
  simp only [flipsInBlock, List.filter]
  rcases j with _ | _ | _ | _ | _ | _ | _ | j <;> simp

theorem witness_RunEqualsTheSingleCommands :
    let s := { block msg5 [] [] [] with rndIn := [3, 10, 47] }
    s.halted = false ∧ BufId.S1 ≠ .S0 ∧ (encodeStream (padTo (s.buf .S0) 4)).length ≤ s.cap ∧
      3 ≤ (encodeStream (padTo (s.buf .S0) 4)).length := by decide +kernel

theorem witness_ReadDataPushesBack :
    ∃ (s t : State) (d : Word), s.halted = false ∧ fitsCount 3 ∧ exec (.read .S0 4 3) s = .next t ∧
      t.rsp = some ⟨.ok, d⟩ :=
  ⟨block code7 [] [] [], _, 0x4000, rfl, by decide, rfl, rfl⟩

/-- A sequence of the least capacity. -/
theorem witness_LoadBitsLoadsTheSequence :
    (small [] []).halted = false ∧ (zeros 49).length ≤ (small [] []).cap := by decide

theorem witness_AssembledTextReadsBack :
    (Instr.push .S3 (zeros 16)).WellFormed ∧ (Instr.read .S0 65535 16).WellFormed ∧
      assembleLine (asmText (.read .S0 65535 16)) = some [.read .S0 65535 16] := by decide

end Sys2Proof.Tests
end

section
/-! The word of a decoded command: a word that decodes is the encoding of its command (30_encoding.md R80). -/

namespace Sys2Proof

theorem field_lt (w : Word) (hi lo : Nat) : field w hi lo < 2 ^ (hi + 1 - lo) := Nat.mod_lt _ (Nat.two_pow_pos _)

@[simp] theorem BufId.num_ofNum_field_sd (w : Word) : (BufId.ofNum (field w 23 22)).num = field w 23 22 :=
  BufId.num_ofNum (field_lt w 23 22)

@[simp] theorem BufId.num_ofNum_field_sa (w : Word) : (BufId.ofNum (field w 21 20)).num = field w 21 20 :=
  BufId.num_ofNum (field_lt w 21 20)

@[simp] theorem BufId.num_ofNum_field_sb (w : Word) : (BufId.ofNum (field w 19 18)).num = field w 19 18 :=
  BufId.num_ofNum (field_lt w 19 18)

@[simp] theorem length_unpackLeft (cnt imm : Nat) : (unpackLeft cnt imm).length = cnt := length_valBits ..

section Formats

variable {w : Word} {op : Op}

/-- A word is the format R word of its own fields (R71). -/
theorem formatR_fields (hop : field w 31 24 = op.code) (hz : field w 17 16 = 0) :
    formatR op (field w 23 22) (field w 21 20) (field w 19 18) (field w 15 0) = w := by
  refine BitVec.eq_of_toNat_eq ?_
  have := w.isLt
  rw [toNat_formatR, ← hop]
  simp only [field] at hz ⊢
  omega

/-- A word is the format L word of its own fields (R72). -/
theorem formatL_fields (hop : field w 31 24 = op.code) :
    formatL op (field w 23 22) (field w 21 20) (field w 19 16 + 1) (field w 15 0) = w := by
  refine BitVec.eq_of_toNat_eq ?_
  have := w.isLt
  rw [toNat_formatL, ← hop]
  simp only [field]
  omega

/-- A word is the format M word of its own fields (R73). -/
theorem formatM_fields (hop : field w 31 24 = op.code) (hz : field w 17 16 = 0) :
    formatM op (field w 23 22) (field w 21 20) (field w 19 18) (field w 15 12) (field w 11 8) (field w 7 4)
      (field w 3 0) = w := by
  have himm : field w 15 12 % 16 * 2 ^ 12 + field w 11 8 % 16 * 2 ^ 8 + field w 7 4 % 16 * 2 ^ 4 + field w 3 0 % 16 =
      field w 15 0 := by
    simp only [field]
    omega
  rw [formatM, himm, formatR_fields hop hz]

/-- The operands of a word with zero reserved fields encode back to the word. -/
theorem encode_of_operands {i : Instr} (hop : field w 31 24 = op.code)
    (hres : ∀ f ∈ op.reserved, field w f.1 f.2 = 0) (h : op.operands w = .ok i) : encode i = w := by
  have hR := formatR_fields hop
  have hL := formatL_fields hop
  have hM := formatM_fields hop
  cases op with
  | push =>
    simp only [Op.operands] at h
    split at h <;> cases h
    next htail =>
      have hcnt : field w 19 16 + 1 ≤ 16 := field_lt w 19 16
      have hpack := packLeft_unpackLeft hcnt (field_lt w 15 0) htail
      simp_all [encode, Op.reserved]
  | rdsr =>
    simp only [Op.operands] at h
    split at h <;> cases h
    next hreg => simp_all [encode, Op.reserved, SReg.num_of_ofNum? hreg]
  | pad =>
    simp only [Op.operands] at h
    split at h <;> cases h
    simp_all [encode, Op.reserved]
  | _ =>
    cases h
    simp_all [encode, Op.reserved]

end Formats

/-- A word that decodes is the word of its command. -/
theorem encode_of_decode {w : Word} {i : Instr} (h : decode w = .ok i) : encode i = w := by
  obtain ⟨op, hop, hres, hi⟩ := decode_ok h
  exact encode_of_operands hop hres hi

end Sys2Proof
end

section
/-! The no-match branch of the decoder is dead (43_syndrome_decoder.md R133): no command answers `InvariantViolation`. -/

namespace Sys2Proof.Machine

theorem length_syndrome (r : Bits) : (syndrome r).length = 3 := length_gf2Product _ _

/-- Every non-zero syndrome is a row of HT. -/
theorem errorPosition_ne_none {syn : Bits} (hlen : syn.length = 3) (h0 : syn ≠ zeros 3) : errorPosition syn ≠ none := by
  obtain ⟨a, b, c, rfl⟩ := List.length_eq_three.mp hlen
  revert a b c
  decide

theorem decodeBlock_ne_none (r : Bits) : decodeBlock r ≠ none := by
  unfold decodeBlock
  split
  · simp
  · next h0 =>
    split
    · simp
    · next hpos => exact absurd hpos (errorPosition_ne_none (length_syndrome r) h0)

theorem decodeStream_ne_none (q : Bits) : decodeStream q ≠ none := by
  induction q using decodeStream.induct with
  | case1 r0 r1 r2 r3 r4 r5 r6 q m ms hms hm ih => simp [decodeStream, hm, hms]
  | case2 r0 r1 r2 r3 r4 r5 r6 q hnone ih =>
    obtain ⟨m, hm⟩ := Option.ne_none_iff_exists'.mp (decodeBlock_ne_none [r0, r1, r2, r3, r4, r5, r6])
    obtain ⟨ms, hms⟩ := Option.ne_none_iff_exists'.mp ih
    exact (hnone m ms hm hms).elim
  | case3 q hshort => simp [decodeStream]

theorem runPipeline_ne_none (q : Bits) (k : Nat) (F : List Nat) : runPipeline q k F ≠ none := by
  unfold runPipeline
  dsimp only
  split
  · next hnone => exact absurd hnone (decodeStream_ne_none _)
  · simp

theorem perform_status_ne_invariantViolation {i : Instr} {s t : State} {body : Except Status (State × Nat)}
    {r : Response} (hb : body ≠ .error .invariantViolation) (h : perform i s body = .next t) (hr : t.rsp = some r) :
    r.status ≠ .invariantViolation := by
  obtain ⟨_, rfl⟩ | ⟨_, f, rfl, rfl⟩ | ⟨_, u, d, _, rfl⟩ := perform_next h
  · cases hr
    simp
  · cases hr
    exact fun hf => hb (congrArg _ hf)
  · cases hr
    simp

theorem exec_status_ne_invariantViolation {i : Instr} {s t : State} {r : Response} (h : exec i s = .next t)
    (hr : t.rsp = some r) : r.status ≠ .invariantViolation := by
  unfold exec at h
  cases i with
  | rdsr idx =>
    cases h
    cases hr
    simp
  | decb sd sa | dec sd sa =>
    refine perform_status_ne_invariantViolation (fun hb => ?_) h hr
    split at hb
    · cases hb
    · split at hb
      · next hnone => simp [decodeBlock_ne_none, decodeStream_ne_none] at hnone
      · cases hb
  | run sd sa k =>
    refine perform_status_ne_invariantViolation (fun hb => ?_) h hr
    dsimp only at hb
    repeat' split at hb
    all_goals cases hb
    next hnone => exact runPipeline_ne_none _ _ _ hnone
  | enc | pad | noise | flip =>
    refine perform_status_ne_invariantViolation (fun hb => ?_) h hr
    dsimp only at hb
    repeat' split at hb
    all_goals cases hb
  | _ =>
    refine perform_status_ne_invariantViolation (fun hb => ?_) h hr
    repeat' split at hb
    all_goals cases hb

end Sys2Proof.Machine
end

section
/-! What one step can do (10_state.md R20), said once: the four inputs of the host, and the outcomes of an accepted word. -/

namespace Sys2Proof.Machine

/-- The block as an accepted word finds it: the word is consumed and the earlier response taken (30_encoding.md R75). -/
abbrev State.accept (s : State) (rest : List HostInput) : State := { s with input := rest, rsp := none }

section Inputs

variable {s : State} {rest : List HostInput}

theorem step_of_decode {w : Word} {i : Instr} (hin : s.input = .command w :: rest) (hd : decode w = .ok i) :
    step s = exec i (s.accept rest) := by
  simp [step, hin, hd]

theorem step_of_undecodable {w : Word} {e : Illegal} (hin : s.input = .command w :: rest) (hd : decode w = .error e) :
    step s = .next (illegalWord w (s.accept rest)) := by
  simp [step, hin, hd]

theorem step_of_takeResponse (hin : s.input = .takeResponse :: rest) : step s = .next (s.accept rest) := by
  simp [step, hin, takeResponse]

theorem step_of_reset (hin : s.input = .reset :: rest) : step s = .next (applyReset { s with input := rest }) := by
  simp [step, hin]

theorem step_of_no_input (hin : s.input = []) : step s = .next s := by
  simp [step, hin]

end Inputs

/-- The outcomes of an accepted word, whether it decodes or not. -/
inductive WordOutcome (w : Word) (s t : State) : Prop where
  /-- A halted block refuses it. -/
  | refused (hh : s.halted = true) (ht : t = refuseHalted s)
  /-- A fault: its bookkeeping, with the word presented, and nothing else. -/
  | faulted (hh : s.halted = false) (f : Status) (hf : f.recorded = true) (ht : t = raise f w s)
  /-- Success of the command it decodes to. -/
  | done (i : Instr) (u : State) (d : Word) (hd : decode w = .ok i) (he : Effect i s u) (ht : t = respond .ok d u)

theorem step_wordOutcome {s t : State} {w : Word} {rest : List HostInput} (hin : s.input = .command w :: rest)
    (h : step s = .next t) : WordOutcome w (s.accept rest) t := by
  cases hd : decode w with
  | error e =>
    rw [step_of_undecodable hin hd] at h
    cases h
    obtain ⟨hh, ht⟩ | ⟨hh, ht⟩ := illegalWord_eq w (s.accept rest)
    · exact .refused hh ht
    · exact .faulted hh .illegalCommand rfl ht
  | ok i =>
    rw [step_of_decode hin hd] at h
    cases exec_outcomes h with
    | refused hh _ ht => exact .refused hh ht
    | faulted hh f hf _ ht => exact .faulted hh f hf (encode_of_decode hd ▸ ht)
    | done u d _ he ht => exact .done i u d hd he ht

/-- Everything a step can do: wait, take a word, take the response, or reset. -/
inductive StepOutcome (s t : State) : Prop where
  | waiting (hin : s.input = []) (ht : t = s)
  | word (w : Word) (rest : List HostInput) (hin : s.input = .command w :: rest)
      (ho : WordOutcome w (s.accept rest) t)
  | taken (rest : List HostInput) (hin : s.input = .takeResponse :: rest) (ht : t = s.accept rest)
  | reset (rest : List HostInput) (hin : s.input = .reset :: rest) (ht : t = applyReset { s with input := rest })

theorem stepOutcome {s t : State} (h : step s = .next t) : StepOutcome s t := by
  match hin : s.input with
  | [] =>
    rw [step_of_no_input hin] at h
    cases h
    exact .waiting hin rfl
  | .command w :: rest => exact .word w rest hin (step_wordOutcome hin h)
  | .takeResponse :: rest =>
    rw [step_of_takeResponse hin] at h
    cases h
    exact .taken rest hin rfl
  | .reset :: rest =>
    rw [step_of_reset hin] at h
    cases h
    exact .reset rest hin rfl

/-! ## The frame of a success -/

section EffectFrame

variable {i : Instr} {s u : State}

theorem Effect.halted_eq (he : Effect i s u) : u.halted = s.halted := by cases he <;> simp

theorem Effect.cause_eq (he : Effect i s u) : u.cause = s.cause := by cases he <;> simp

theorem Effect.fcmd_eq (he : Effect i s u) : u.fcmd = s.fcmd := by cases he <;> simp

theorem Effect.cap_eq (he : Effect i s u) : u.cap = s.cap := by cases he <;> simp

theorem Effect.input_eq (he : Effect i s u) : u.input = s.input := by cases he <;> simp

/-- No buffer but the destination changes (10_state.md R22, R23). -/
theorem Effect.buf_eq (he : Effect i s u) {b : BufId} (hb : i.dest? ≠ some b) : u.buf b = s.buf b := by
  cases he with
  | same => rfl
  | write sd q h =>
    exact buf_setBuf_ne s sd b q fun hbd => hb (hbd ▸ h)
  | noise sd sa k q h =>
    subst h
    rw [buf_setBuf_ne _ sd b q fun hbd => hb (hbd ▸ rfl), buf_afterDraw]
  | run sd sa k r h =>
    subst h
    rw [buf_setReport, buf_setBuf_ne _ sd b _ fun hbd => hb (hbd ▸ rfl), buf_afterDraw]

/-- The five result registers change in a RUN only (10_state.md R30). -/
theorem Effect.counts_eq (he : Effect i s u) (hop : i.op ≠ .run) :
    u.total = s.total ∧ u.padlen = s.padlen ∧ u.flips = s.flips ∧ u.resid = s.resid ∧ u.enclen = s.enclen := by
  cases he with
  | run sd sa k r h =>
    subst h
    exact absurd rfl hop
  | _ => simp

end EffectFrame

end Sys2Proof.Machine
end

section
/-! The invariant of 10_state.md R21 and R31: it holds at reset and every step keeps it. -/

namespace Sys2Proof.Machine

theorem buffersFit_iff (s : State) : s.BuffersFit ↔ ∀ b, (s.buf b).length ≤ s.cap := by
  constructor
  · rintro ⟨h0, h1, h2, h3⟩ (_ | _ | _ | _)
    · exact h0
    · exact h1
    · exact h2
    · exact h3
  · exact fun h => ⟨h .S0, h .S1, h .S2, h .S3⟩

theorem buffersFit_setBuf {s : State} {q : Bits} (b : BufId) (hs : s.BuffersFit) (hq : q.length ≤ s.cap) :
    (s.setBuf b q).BuffersFit := by
  rw [buffersFit_iff] at hs ⊢
  intro c
  rw [cap_setBuf, buf_setBuf]
  split
  · exact hq
  · exact hs c

/-- The invariant does not speak of the response port. -/
theorem inv_respond {st : Status} {d : Word} {s : State} : (respond st d s).Inv ↔ s.Inv := Iff.rfl

/-- A buffer write keeps the invariant when the sequence fits. -/
theorem inv_setBuf {s : State} {q : Bits} (b : BufId) (hs : s.Inv) (hq : q.length ≤ s.cap) : (s.setBuf b q).Inv := by
  obtain ⟨hcap, hbuf, hcause, hcounts⟩ := hs
  exact ⟨by simpa [State.CapOk] using hcap, buffersFit_setBuf b hbuf hq, by simpa [State.CauseLegal] using hcause,
    by simpa [State.CountsLegal] using hcounts⟩

/-- The counts of a RUN within its checks are legal (46_pipeline.md R176, R177). -/
theorem countsLegal_setReport {s : State} {q : Bits} {k : Nat} {F : List Nat} {r : RunReport}
    (hr : runPipeline q k F = some r) (hcap : s.CapOk) (hc : runLength q.length ≤ s.cap)
    (hk : k ≤ runLength q.length) : (s.setReport r).CountsLegal := by
  obtain ⟨htotal, hpadlen, hflips, hresid, henclen, -⟩ := runPipeline_counts hr
  have hlen := le_runLength q.length
  have hpad := padCount_lt q.length (show 1 ≤ 4 by decide)
  have hdist := bitDist_le_length q r.recovered
  have h49 := runLength_mod q.length
  have htotal' : (s.setReport r).total.toNat = q.length := by
    simp only [total_setReport, BitVec.toNat_ofNat, htotal]
    omega
  have henclen' : (s.setReport r).enclen.toNat = runLength q.length := by
    simp only [enclen_setReport, BitVec.toNat_ofNat, henclen]
    omega
  rw [State.CountsLegal, htotal', henclen']
  simp only [cap_setReport, padlen_setReport, flips_setReport, resid_setReport, BitVec.toNat_ofNat, hpadlen, hflips,
    hresid]
  omega

/-- A success keeps the invariant. -/
theorem inv_of_effect {i : Instr} {s u : State} (hs : s.Inv) (he : Effect i s u) : u.Inv := by
  have hfit := (buffersFit_iff s).mp hs.2.1
  cases he with
  | same => exact hs
  | write sd q _ hq => exact inv_setBuf sd hs (hq hs.1 hfit)
  | noise sd sa k q _ _ hq => exact inv_setBuf sd (s := s.afterDraw _ k) hs (hq ▸ hfit sa)
  | run sd sa k r _ hc hk hr =>
    obtain ⟨-, -, -, -, -, hlen⟩ := runPipeline_counts hr
    obtain ⟨hcap, hbuf, hcause, -⟩ := inv_setBuf sd (s := s.afterDraw _ k) hs (hlen ▸ hfit sa)
    exact ⟨hcap, hbuf, hcause, countsLegal_setReport hr hcap (by simpa using hc) hk⟩

/-- A fault of a running block keeps the invariant: its status is a legal cause, and a fatal one if it halts
(60_exceptions.md R220). -/
theorem inv_raise {f : Status} {s : State} (w : Word) (hs : s.Inv) (hh : s.halted = false) (hf : f.recorded = true) :
    (raise f w s).Inv := by
  obtain ⟨hcap, hbuf, -, hcounts⟩ := hs
  refine ⟨hcap, hbuf, ?_, hcounts⟩
  rw [State.CauseLegal, cause_raise, halted_raise, hh, Bool.false_or]
  revert hf
  cases f <;> decide

theorem inv_of_wordOutcome {w : Word} {s t : State} (hs : s.Inv) (ho : WordOutcome w s t) : t.Inv := by
  cases ho with
  | refused _ ht => exact ht ▸ inv_respond.mpr hs
  | faulted hh f hf ht => exact ht ▸ inv_raise w hs hh hf
  | done i u d _ he ht => exact ht ▸ inv_respond.mpr (inv_of_effect hs he)

/-- Reset establishes all of the invariant but the range of the capacity, which it leaves as it is. -/
theorem inv_applyReset {s : State} (hcap : s.CapOk) : (applyReset s).Inv :=
  ⟨hcap, by simp [State.BuffersFit], by simp [State.CauseLegal], by simp [State.CountsLegal]⟩

/-- Settles O22: each outcome of a step keeps the invariant. -/
theorem everyStepKeepsTheInvariant : Obligations.EveryStepKeepsTheInvariant := by
  intro s t hs h
  cases stepOutcome h with
  | waiting _ ht => exact ht ▸ hs
  | word w rest _ ho => exact inv_of_wordOutcome (s := s.accept rest) hs ho
  | taken rest _ ht => exact ht ▸ hs
  | reset rest _ ht => exact ht ▸ inv_applyReset (s := { s with input := rest }) hs.1

theorem capOk_reset : State.reset.CapOk := by
  have := Config.capAbove.isLt
  show 49 ≤ Config.cap ∧ Config.cap ≤ 65535
  unfold Config.cap
  omega

/-- Settles O21: `State.reset` is what reset makes of itself. -/
theorem resetMeetsTheInvariant : Obligations.ResetMeetsTheInvariant :=
  inv_applyReset (s := State.reset) capOk_reset

end Sys2Proof.Machine
end

section
/-! The status registers (10_state.md R27 to R29, R35): CAUSE, FCMD and HALTED after a command, CAP and ID always, and the
reset values. -/

namespace Sys2Proof.Machine

theorem Status.recorded_of_code_mem {st : Status} (h : st.code ∈ [1, 2, 3, 4, 5, 8, 9, 10]) :
    st ≠ .ok ∧ st ≠ .halted := by
  revert h
  cases st <;> decide

theorem Status.fatal_iff_mem (st : Status) :
    st.fatal = true ↔ st ∈ [.shapeMismatch, .contractError, .invariantViolation] := by
  cases st <;> decide

/-- CAUSE and FCMD after an accepted word: the fault just answered, or what they held (10_state.md R28). -/
theorem WordOutcome.cause_fcmd {w : Word} {s t : State} {r : Response} (ho : WordOutcome w s t) (hr : t.rsp = some r) :
    (r.status ≠ .ok ∧ r.status ≠ .halted → t.cause = r.status.code ∧ t.fcmd = w) ∧
    (r.status = .ok ∨ r.status = .halted → t.cause = s.cause ∧ t.fcmd = s.fcmd) := by
  cases ho with
  | refused _ ht =>
    subst ht
    cases hr
    simp
  | faulted _ f hf ht =>
    subst ht
    cases hr
    obtain ⟨hok, hhalted⟩ := (recorded_iff f).mp hf
    simp [hok, hhalted]
  | done i u d _ he ht =>
    subst ht
    cases hr
    simp [he.cause_eq, he.fcmd_eq]

/-- HALTED after an accepted word (10_state.md R27). -/
theorem WordOutcome.halted_iff {w : Word} {s t : State} {r : Response} (ho : WordOutcome w s t) (hr : t.rsp = some r) :
    t.halted = true ↔ s.halted = true ∨ r.status.fatal = true := by
  cases ho with
  | refused _ ht =>
    subst ht
    cases hr
    simp [Status.fatal]
  | faulted _ f hf ht =>
    subst ht
    cases hr
    simp
  | done i u d _ he ht =>
    subst ht
    cases hr
    simp [he.halted_eq, Status.fatal]

theorem WordOutcome.cap_eq {w : Word} {s t : State} (ho : WordOutcome w s t) : t.cap = s.cap := by
  cases ho with
  | refused _ ht => exact ht ▸ rfl
  | faulted _ f _ ht => exact ht ▸ rfl
  | done i u d _ he ht => exact ht ▸ he.cap_eq

/-- No step changes the capacity (10_state.md R29). -/
theorem step_keeps_cap {s t : State} (h : step s = .next t) : t.cap = s.cap := by
  cases stepOutcome h with
  | waiting _ ht => rw [ht]
  | word w rest _ ho => exact ho.cap_eq
  | taken rest _ ht => rw [ht]
  | reset rest _ ht => rw [ht, cap_applyReset]

theorem toNat_readSr_cause_lt (s : State) : (s.readSr .CAUSE).toNat < 16 := by
  simp only [State.readSr, BitVec.toNat_setWidth]
  have := s.cause.isLt
  omega

theorem toNat_readSr_state_lt (s : State) : (s.readSr .STATE).toNat < 2 := by
  simp only [State.readSr]
  split <;> decide

/-- Settles O15, from the outcomes of the accepted word. -/
theorem causeAndFcmdAreSticky : Obligations.CauseAndFcmdAreSticky := by
  refine ⟨fun s t w rest r hin h hr => ?_, toNat_readSr_cause_lt⟩
  obtain ⟨hfault, hkept⟩ := (step_wordOutcome hin h).cause_fcmd hr
  exact ⟨fun hcode => hfault (Status.recorded_of_code_mem hcode), hkept⟩

/-- Settles O16, from the outcomes of the accepted word. -/
theorem haltedIsSetByFatalFaultsOnly : Obligations.HaltedIsSetByFatalFaultsOnly := by
  refine ⟨rfl, fun s t w rest r hin h hr => ?_, toNat_readSr_state_lt⟩
  rw [← Status.fatal_iff_mem]
  exact (step_wordOutcome hin h).halted_iff hr

/-- Settles O23: the registers read the capacity, which no step changes, and a constant. -/
theorem capacityAndIdentityNeverChange : Obligations.CapacityAndIdentityNeverChange := by
  refine ⟨fun s => ⟨rfl, rfl⟩, fun s t h => ⟨step_keeps_cap h, ?_, rfl⟩⟩
  simp only [State.readSr, step_keeps_cap h]

/-- Settles O8, by the decoder's case of `step`. -/
theorem stepRunsTheDecodedCommand : Obligations.StepRunsTheDecodedCommand :=
  fun _ _ _ _ hin hd => step_of_decode hin hd

/-- After reset every status register but CAP and ID reads as zero (10_state.md R35). -/
theorem readSr_applyReset (s : State) {r : SReg} (hcap : r ≠ .CAP) (hid : r ≠ .ID) : (applyReset s).readSr r = 0 := by
  cases r with
  | CAP => exact absurd rfl hcap
  | ID => exact absurd rfl hid
  | _ => rfl

/-- Settles O11: both are the state `applyReset` leaves. -/
theorem resetLeavesTheResetValues : Obligations.ResetLeavesTheResetValues := by
  refine ⟨fun s rest hin => ⟨_, step_of_reset hin, buf_applyReset _, fun r => readSr_applyReset _, rfl, rfl, rfl, rfl⟩,
    buf_applyReset State.reset, fun r => readSr_applyReset State.reset, rfl, rfl, rfl⟩

end Sys2Proof.Machine
end

section
/-! The frame of the 19 commands (10_state.md R22, R23, R30, 60_exceptions.md R220) and of their requests on the
random-index port (30_encoding.md R74, 45_noise_injector.md R163, R165). -/

namespace Sys2Proof.Machine

/-- A draw takes one injected answer for each request on the port, as long as there are answers (R165). -/
theorem rndIn_afterDraw_eq_drop (s : State) (bound k : Nat) :
    (s.afterDraw bound k).rndIn = s.rndIn.drop (s.drawExchanges bound k).length := by
  have hlen := length_loopExchanges bound k [] (s.rndIn.map BitVec.toNat)
  rw [List.length_map, ← State.injectedDraw] at hlen
  rw [rndIn_afterDraw, State.drawExchanges, List.length_append]
  split
  · next hreq =>
    have hrest : (s.injectedDraw bound k).2 = [] := selectLoop_rest_of_rndReq hreq
    rw [hrest, List.length_nil] at hlen ⊢
    rw [List.drop_eq_nil_of_le (by omega), List.drop_eq_nil_of_le (by omega)]
  · congr 1
    simp only [List.length_nil]
    omega

/-- A success takes the injected answers its requests ask for. -/
theorem Effect.rndIn_eq {i : Instr} {s u : State} (hh : s.halted = false ∨ i.op = .rdsr) (he : Effect i s u) :
    u.rndIn = s.rndIn.drop (portExchanges i s).length := by
  cases he with
  | same h => rw [portExchanges_of_dest_none s h, List.length_nil, List.drop_zero]
  | write sd q _ _ hp => rw [hp, List.length_nil, List.drop_zero, rndIn_setBuf]
  | noise sd sa k q h hk =>
    subst h
    have hrun : s.halted = false := hh.resolve_right (by simp [Instr.op])
    rw [portExchanges_noise sd hrun hk, rndIn_setBuf, rndIn_afterDraw_eq_drop]
  | run sd sa k r h hc hk =>
    subst h
    have hrun : s.halted = false := hh.resolve_right (by simp [Instr.op])
    rw [portExchanges_run sd hrun hc hk, rndIn_setReport, rndIn_setBuf, rndIn_afterDraw_eq_drop]

/-- Only NOISE and RUN change what the random source holds. -/
theorem Effect.rnd_eq {i : Instr} {s u : State} (he : Effect i s u) (hop : i.op ≠ .noise ∧ i.op ≠ .run) :
    u.rndIn = s.rndIn ∧ u.rndCount = s.rndCount := by
  cases he with
  | same => exact ⟨rfl, rfl⟩
  | write => simp
  | noise sd sa k q h => exact absurd (h ▸ rfl) hop.1
  | run sd sa k r h => exact absurd (h ▸ rfl) hop.2

/-- Settles O17, from the outcomes of the command; that a fault asked for no index rests on the decoder's dead branch. -/
theorem commandsChangeOnlyWhatTheyName : Obligations.CommandsChangeOnlyWhatTheyName := by
  intro i s t r h hr
  have hlive := exec_status_ne_invariantViolation h hr
  cases exec_outcomes h with
  | refused hh _ ht =>
    subst ht
    cases hr
    simp [portExchanges_of_halted i hh]
  | faulted _ f hf hp ht =>
    subst ht
    cases hr
    have hok : f ≠ .ok := ((recorded_iff f).mp hf).1
    simp [hp hlive, hok]
  | done u d hh he ht =>
    subst ht
    cases hr
    refine ⟨fun b hb => ?_, fun hok => absurd rfl hok, fun hop => ?_, fun _ => ⟨he.cause_eq, he.fcmd_eq, he.halted_eq⟩,
      he.cap_eq, he.input_eq, fun hop => ?_, (rndIn_respond ..).trans (he.rndIn_eq hh)⟩
    · rw [buf_respond, he.buf_eq hb]
    · exact he.counts_eq (hop.resolve_right fun hok => hok rfl)
    · have hop := hop.resolve_right fun hok => hok rfl
      obtain ⟨hin, hcount⟩ := he.rnd_eq hop
      exact ⟨hin, hcount, portExchanges_of_op s hop⟩

end Sys2Proof.Machine
end

section
/-! A command's result depends on its sources, operands, the capacity, the halt latch and the draw only (10_state.md R22,
R25, 90_conflicts.md C3). -/

namespace Sys2Proof.Machine

/-- Two states agree on everything the result of a command may depend on. -/
structure SameInputs (i : Instr) (s s' : State) : Prop where
  buf : ∀ b ∈ i.sources, s.buf b = s'.buf b
  halted : s.halted = s'.halted
  cap : s.cap = s'.cap
  rndIn : s.rndIn = s'.rndIn
  rndCount : s.rndCount = s'.rndCount

/-- Two runs of a command's checks and effect end alike: in the same fault, or with the same data and the same
destination buffer. -/
inductive SameResult (dest : Option BufId) : Except Status (State × Nat) → Except Status (State × Nat) → Prop where
  | error (f : Status) (hf : f ≠ .ok := by decide) : SameResult dest (.error f) (.error f)
  | ok (u u' : State) (d : Nat) (h : ∀ b, dest = some b → u.buf b = u'.buf b) : SameResult dest (.ok (u, d)) (.ok (u', d))

/-- Two states hold the same answer and, if it is `OK`, the same destination buffer. -/
def SameAnswer (dest : Option BufId) (t t' : State) : Prop :=
  t.rsp = t'.rsp ∧ ∀ r, t.rsp = some r → r.status = .ok → ∀ b, dest = some b → t.buf b = t'.buf b

section Results

variable {dest : Option BufId} {body body' body₂ body₂' : Except Status (State × Nat)}

/-- One check made in both runs. -/
theorem SameResult.ite {c : Prop} [Decidable c] (h : SameResult dest body body') (h₂ : SameResult dest body₂ body₂') :
    SameResult dest (if c then body else body₂) (if c then body' else body₂') := by
  split
  · exact h
  · exact h₂

/-- The same sequence written to the destination. -/
theorem SameResult.write (s s' : State) (sd : BufId) (q : Bits) (d : Nat) :
    SameResult (some sd) (.ok (s.setBuf sd q, d)) (.ok (s'.setBuf sd q, d)) := by
  refine .ok _ _ d fun b hb => ?_
  cases hb
  rw [buf_setBuf_same, buf_setBuf_same]

/-- The same data from a command without a destination. -/
theorem SameResult.report (s s' : State) (d : Nat) : SameResult none (.ok (s, d)) (.ok (s', d)) :=
  .ok s s' d fun _ hb => by cases hb

theorem SameResult.answer {i : Instr} {s s' t t' : State} (hb : SameResult dest body body')
    (hh : s.halted = s'.halted) (h : perform i s body = .next t) (h' : perform i s' body' = .next t') :
    SameAnswer dest t t' := by
  cases hs : s.halted with
  | true =>
    rw [perform_halted i s body hs] at h
    rw [perform_halted i s' body' (hh ▸ hs)] at h'
    cases h
    cases h'
    refine ⟨rfl, fun r hr hok => ?_⟩
    cases hr
    cases hok
  | false =>
    cases hb with
    | error f hf =>
      rw [perform_error i s f hs] at h
      rw [perform_error i s' f (hh ▸ hs)] at h'
      cases h
      cases h'
      refine ⟨rfl, fun r hr hok => ?_⟩
      cases hr
      exact absurd hok hf
    | ok u u' d hbuf =>
      rw [perform_ok i s u d hs] at h
      rw [perform_ok i s' u' d (hh ▸ hs)] at h'
      cases h
      cases h'
      refine ⟨rfl, fun r _ _ b hb => ?_⟩
      rw [buf_respond, buf_respond, hbuf b hb]

end Results

/-- The draw is a function of the injected answers and the count of the free source's uses. -/
theorem drawSet_congr {s s' : State} (hin : s.rndIn = s'.rndIn) (hcount : s.rndCount = s'.rndCount) :
    s.drawSet = s'.drawSet := by
  unfold State.drawSet State.injectedDraw State.freeAnswers
  rw [hin, hcount]

/-- Two runs of a command from states that agree on its inputs answer alike. -/
theorem exec_sameAnswer {i : Instr} {s s' t t' : State} (hi : i.op ≠ .rdsr) (hs : SameInputs i s s')
    (h : exec i s = .next t) (h' : exec i s' = .next t') : SameAnswer i.dest? t t' := by
  obtain ⟨hbuf, hhalted, hcap, hin, hcount⟩ := hs
  unfold exec at h h'
  cases i with
  | rdsr idx => exact absurd rfl hi
  | clr sd => exact SameResult.answer (.write ..) hhalted h h'
  | mov sd sa =>
    refine SameResult.answer ?_ hhalted h h'
    rw [hbuf sa (by simp [Instr.sources])]
    exact .write ..
  | len sa =>
    refine SameResult.answer ?_ hhalted h h'
    rw [hbuf sa (by simp [Instr.sources])]
    exact .report ..
  | read sa off cnt =>
    refine SameResult.answer ?_ hhalted h h'
    rw [hbuf sa (by simp [Instr.sources])]
    exact .ite (.error _) (.report ..)
  | cmp sa sb =>
    refine SameResult.answer ?_ hhalted h h'
    rw [hbuf sa (by simp [Instr.sources]), hbuf sb (by simp [Instr.sources])]
    exact .ite (.error _) (.report ..)
  | push sd lit =>
    refine SameResult.answer ?_ hhalted h h'
    rw [hbuf sd (by simp [Instr.sources]), hcap]
    exact .ite (.error _) (.write ..)
  | ldg sd | ldht sd =>
    refine SameResult.answer ?_ hhalted h h'
    rw [hcap]
    exact .ite (.error _) (.write ..)
  | encb sd sa | trunc sd sa _ | flip sd sa _ =>
    refine SameResult.answer ?_ hhalted h h'
    rw [hbuf sa (by simp [Instr.sources])]
    exact .ite (.error _) (.write ..)
  | enc sd sa | pad sd sa _ =>
    refine SameResult.answer ?_ hhalted h h'
    rw [hbuf sa (by simp [Instr.sources]), hcap]
    exact .ite (.error _) (.ite (.error _) (.write ..))
  | mmul sd sa sb m n k p =>
    refine SameResult.answer ?_ hhalted h h'
    rw [hbuf sa (by simp [Instr.sources]), hbuf sb (by simp [Instr.sources]), hcap]
    split
    · exact .error _
    · exact .ite (.error _) (.ite (.error _) (.write ..))
  | decb sd sa | dec sd sa =>
    refine SameResult.answer ?_ hhalted h h'
    rw [hbuf sa (by simp [Instr.sources])]
    refine .ite (.error _) ?_
    split
    · exact .error _
    · exact .write ..
  | noise sd sa k =>
    refine SameResult.answer ?_ hhalted h h'
    rw [hbuf sa (by simp [Instr.sources]), drawSet_congr hin hcount]
    exact .ite (.error _) (.write ..)
  | run sd sa k =>
    refine SameResult.answer ?_ hhalted h h'
    rw [hbuf sa (by simp [Instr.sources]), hcap, drawSet_congr hin hcount]
    refine .ite (.error _) (.ite (.error _) ?_)
    split
    · exact .error _
    · next r _ =>
      refine .ok _ _ _ fun b hb => ?_
      cases hb
      rw [buf_setReport, buf_setReport, buf_setBuf_same, buf_setBuf_same]

/-- Settles O20, by comparing the two runs check by check; RDSR has no destination. -/
theorem resultDependsOnNamedSourcesOnly : Obligations.ResultDependsOnNamedSourcesOnly := by
  intro i s s' t t' r hbuf hhalted hcap hin hcount h h' hr
  have hsame (hi : i.op ≠ .rdsr) := exec_sameAnswer hi ⟨hbuf, hhalted, hcap, hin, hcount⟩ h h'
  refine ⟨fun hi => (hsame hi).1 ▸ hr, fun hok b hb => ?_⟩
  have hi : i.op ≠ .rdsr := by
    cases i with
    | rdsr idx => cases hb
    | _ => exact Op.noConfusion
  exact (hsame hi).2 r hr hok b hb

end Sys2Proof.Machine
end

section
/-! The encoder and the decoder are inverse (30_encoding.md R80): the word of a well-formed command, field by field, and
the command of a word that decodes. -/

namespace Sys2Proof

/-! ## The word of a command -/

theorem field_op_encode (i : Instr) : field (encode i) 31 24 = i.op.code := by
  cases i <;> simp [encode, Instr.op]

/-- The word of a command has zeros in the fields the command does not use (R82). -/
theorem reserved_encode (i : Instr) : ∀ f ∈ i.op.reserved, field (encode i) f.1 f.2 = 0 := by
  cases i <;> simp [encode, Instr.op, Op.reserved]

/-- The operand fields of a well-formed command's word hold its operands (R78). -/
theorem operands_encode {i : Instr} (h : i.WellFormed) : i.op.operands (encode i) = .ok i := by
  cases i with
  | push sd lit =>
    have hlen : fitsCount lit.length := of_decide_eq_true h
    have hcnt : (lit.length - 1) % 16 + 1 = lit.length := by omega
    have hlit : packLeft lit % 65536 = packLeft lit := Nat.mod_eq_of_lt (packLeft_lt hlen.2)
    simp [encode, Instr.op, Op.operands, hcnt, hlit]
  | read sa off cnt =>
    obtain ⟨hoff, hcnt⟩ : fitsImm off ∧ fitsCount cnt := of_decide_eq_true h
    have hcm1 : (cnt - 1) % 16 + 1 = cnt := by omega
    simp [encode, Instr.op, Op.operands, hcm1, Nat.mod_eq_of_lt hoff]
  | rdsr idx =>
    have hidx : idx.num % 65536 = idx.num := Nat.mod_eq_of_lt (idx.num_lt.trans (by decide))
    simp [encode, Instr.op, Op.operands, hidx]
  | mmul sd sa sb m n k p =>
    obtain ⟨hm, hn, hk, hp⟩ : fitsDim m ∧ fitsDim n ∧ fitsDim k ∧ fitsDim p := of_decide_eq_true h
    simp [encode, Instr.op, Op.operands, Nat.mod_eq_of_lt hm, Nat.mod_eq_of_lt hn, Nat.mod_eq_of_lt hk,
      Nat.mod_eq_of_lt hp]
  | pad sd sa v =>
    obtain ⟨hpos, hv⟩ : 1 ≤ v ∧ fitsImm v := of_decide_eq_true h
    simp [encode, Instr.op, Op.operands, Nat.mod_eq_of_lt hv, Nat.ne_of_gt hpos]
  | trunc sd sa v | noise sd sa v | flip sd sa v | run sd sa v =>
    have hv : fitsImm v := of_decide_eq_true h
    simp [encode, Instr.op, Op.operands, Nat.mod_eq_of_lt hv]
  | _ => simp [encode, Instr.op, Op.operands]

/-- Settles O3, field by field: opcode, reserved fields, operands. -/
theorem decodeOfEncodeIsTheCommand : Obligations.DecodeOfEncodeIsTheCommand := by
  intro i hi
  rw [decode_of_fields (field_op_encode i) (by simpa using reserved_encode i), operands_encode hi]

/-! ## The command of a word -/

/-- The operands read from a word are in range: a literal has 1 to 16 bits and each number is cut from a field of its
width. -/
theorem wellFormed_of_operands {op : Op} {w : Word} {i : Instr} (h : op.operands w = .ok i) : i.WellFormed := by
  have himm : fitsImm (field w 15 0) := field_lt w 15 0
  have hcnt : fitsCount (field w 19 16 + 1) := ⟨Nat.succ_pos _, field_lt w 19 16⟩
  cases op with
  | push =>
    simp only [Op.operands] at h
    split at h <;> cases h
    exact decide_eq_true (by rwa [length_unpackLeft])
  | read =>
    cases h
    exact decide_eq_true ⟨himm, hcnt⟩
  | rdsr =>
    simp only [Op.operands] at h
    split at h <;> cases h
    rfl
  | mmul =>
    cases h
    exact decide_eq_true ⟨field_lt w 15 12, field_lt w 11 8, field_lt w 7 4, field_lt w 3 0⟩
  | pad =>
    simp only [Op.operands] at h
    split at h <;> cases h
    next h0 => exact decide_eq_true ⟨Nat.pos_of_ne_zero h0, himm⟩
  | trunc | noise | flip | run =>
    cases h
    exact decide_eq_true himm
  | _ =>
    cases h
    rfl

theorem wellFormed_of_decode {w : Word} {i : Instr} (h : decode w = .ok i) : i.WellFormed := by
  obtain ⟨op, -, -, hi⟩ := decode_ok h
  exact wellFormed_of_operands hi

/-- Settles O4: what the decoder reads from the fields is in range and encodes back to the word. -/
theorem encodeOfDecodeIsTheWord : Obligations.EncodeOfDecodeIsTheWord :=
  fun _ _ h => ⟨wellFormed_of_decode h, encode_of_decode h⟩

/-! ## Words that do not decode -/

/-- Settles O6: the word of the command has zeros there. -/
theorem unusedFieldsAreZeroInEveryCommand : Obligations.UnusedFieldsAreZeroInEveryCommand := by
  intro w i h
  obtain rfl := encode_of_decode h
  refine ⟨(field_op_encode i).symm, ?_⟩
  have hres := reserved_encode i
  cases i <;> simpa [Instr.op, Op.reserved] using hres

theorem Op.code_injective : Function.Injective Op.code := fun op op' h =>
  Option.some.inj (by rw [← Op.ofCode?_code op, h, Op.ofCode?_code])

/-- The command of a word that decodes has the opcode whose value stands in the word. -/
theorem op_eq_of_field {i : Instr} {op : Op} (h : field (encode i) 31 24 = op.code) : i.op = op :=
  Op.code_injective (field_op_encode i ▸ h)

theorem push_tail_encode (sd : BufId) {lit : Bits} (hlit : fitsCount lit.length) :
    field (encode (.push sd lit)) 15 0 % 2 ^ (16 - (field (encode (.push sd lit)) 19 16 + 1)) = 0 := by
  have hcnt : (lit.length - 1) % 16 + 1 = lit.length := by omega
  simp only [encode, formatL_imm, formatL_cm1, hcnt, Nat.mod_eq_of_lt (packLeft_lt hlit.2), packLeft_mod]

/-- Settles O7: the word is that of a well-formed PUSH, PAD or RDSR. -/
theorem pushTailPadZeroAndHighRegistersAreIllegal : Obligations.PushTailPadZeroAndHighRegistersAreIllegal := by
  intro w i h
  have hwf := wellFormed_of_decode h
  obtain rfl := encode_of_decode h
  refine ⟨fun hop => ?_, fun hop => ?_, fun hop => ?_⟩
  · have hi : i.op = .push := op_eq_of_field hop
    cases i with
    | push sd lit => exact push_tail_encode sd (of_decide_eq_true hwf)
    | _ => cases hi
  · have hi : i.op = .pad := op_eq_of_field hop
    cases i with
    | pad sd sa v =>
      obtain ⟨hpos, hv⟩ : 1 ≤ v ∧ fitsImm v := of_decide_eq_true hwf
      simp only [encode, formatR_imm, Nat.mod_eq_of_lt hv]
      omega
    | _ => cases hi
  · have hi : i.op = .rdsr := op_eq_of_field hop
    cases i with
    | rdsr idx =>
      have := idx.num_lt
      simp only [encode, formatR_imm]
      omega
    | _ => cases hi

theorem decode_of_unassigned {w : Word} (h : ∀ op : Op, field w 31 24 ≠ op.code) : decode w = .error .unassignedOp := by
  have hnone : Op.ofCode? (field w 31 24) = none :=
    Option.eq_none_iff_forall_ne_some.mpr fun op hop => h op (Op.code_of_ofCode? hop).symm
  simp only [decode, hnone]

/-! ## The Encoding lines -/

/-- Settles O2: in range, no field is cut. -/
theorem commandWordsAreThoseOfTheirRules : Obligations.CommandWordsAreThoseOfTheirRules := by
  intro sd sa sb lit off cnt m n k p v r hoff hcnt hv hm hn hk hp hlit
  have hlit' := packLeft_lt hlit.2
  have hr := r.num_lt
  and_intros
  all_goals
    refine congrArg (BitVec.ofNat 32) ?_
    simp only [BufId.num_mod, Op.code]
    omega

end Sys2Proof
end

section
/-! Every accepted word is answered (30_encoding.md R75, R81, 10_state.md R20). -/

namespace Sys2Proof.Machine

/-- Settles O5: no opcode has such a value, so the running block answers the word as illegal. -/
theorem unassignedOpcodeIsAnsweredIllegal : Obligations.UnassignedOpcodeIsAnsweredIllegal := by
  refine ⟨fun s w rest hin hrun hop => ?_, by decide, by decide⟩
  have hnone : decode w = .error .unassignedOp :=
    decode_of_unassigned fun op h => hop (h ▸ by cases op <;> decide)
  rw [step_of_undecodable hin hnone]
  simp [illegalWord, raise, respond, Status.fatal, Status.code, hrun]

/-- An accepted word leaves one response on the port. -/
theorem WordOutcome.exists_rsp {w : Word} {s t : State} (ho : WordOutcome w s t) : ∃ r, t.rsp = some r := by
  cases ho with
  | refused _ ht => exact ⟨_, ht ▸ rsp_refuseHalted s⟩
  | faulted _ f _ ht => exact ⟨_, ht ▸ rsp_raise f w s⟩
  | done i u d _ _ ht => exact ⟨_, ht ▸ rsp_respond .ok d u⟩

theorem WordOutcome.input_eq {w : Word} {s t : State} (ho : WordOutcome w s t) : t.input = s.input := by
  cases ho with
  | refused _ ht => exact ht ▸ rfl
  | faulted _ f _ ht => exact ht ▸ rfl
  | done i u d _ he ht => exact ht ▸ he.input_eq

theorem step_total (s : State) : ∃ t, step s = .next t := by
  match hin : s.input with
  | [] => exact ⟨_, step_of_no_input hin⟩
  | .command w :: rest =>
    cases hd : decode w with
    | error e => exact ⟨_, step_of_undecodable hin hd⟩
    | ok i => exact step_of_decode hin hd ▸ exec_total i _
  | .takeResponse :: rest => exact ⟨_, step_of_takeResponse hin⟩
  | .reset :: rest => exact ⟨_, step_of_reset hin⟩

/-- Settles O13: a step has a next state, and each outcome of a word is an answer. -/
theorem everyWordGetsOneResponse : Obligations.EveryWordGetsOneResponse := by
  refine ⟨fun s w rest hin => ?_, step_total⟩
  obtain ⟨t, ht⟩ := step_total s
  have ho := step_wordOutcome hin ht
  obtain ⟨r, hr⟩ := ho.exists_rsp
  exact ⟨t, r, ht, hr, ho.input_eq⟩

end Sys2Proof.Machine
end

section
/-! LOADBITS (30_encoding.md R89): its CLR and its PUSHes, run from a running block, answer OK one after another. -/

namespace Sys2Proof.Machine

/-! ## A run of a command's word -/

/-- The word of a well-formed command runs that command; its response comes first, and the rest runs from there. -/
theorem runWords_encode_cons {i : Instr} {s t : State} {r : Response} (ws : List Word) (hi : i.WellFormed)
    (h : exec i (s.accept s.input) = .next t) (hr : t.rsp = some r) :
    runWords (encode i :: ws) s = (r :: (runWords ws t).1, (runWords ws t).2) := by
  have hstep : step { s with input := .command (encode i) :: s.input } = .next t :=
    (step_of_decode rfl (decodeOfEncodeIsTheCommand i hi)).trans h
  simp only [runWords, hstep, hr, Option.toList_some, List.singleton_append]

theorem exec_clr_of_running {s : State} (sd : BufId) (hrun : s.halted = false) :
    exec (.clr sd) s = .next (respond .ok 0 (s.setBuf sd [])) := perform_ok (.clr sd) s _ 0 hrun

theorem exec_push_of_fits {s : State} {sd : BufId} {lit : Bits} (hrun : s.halted = false)
    (hfit : (s.buf sd).length + lit.length ≤ s.cap) :
    exec (.push sd lit) s =
      .next (respond .ok (BitVec.ofNat 32 ((s.buf sd).length + lit.length)) (s.setBuf sd (s.buf sd ++ lit))) := by
  rw [exec_push, execPush, if_neg (Nat.not_lt.mpr hfit), perform_ok _ _ _ _ hrun]

theorem buf_accept (s : State) (rest : List HostInput) (b : BufId) : (s.accept rest).buf b = s.buf b := by
  cases b <;> rfl

/-! ## Loading a buffer -/

/-- What a run from `s` has done: `n` responses, all OK, the sequence `q` in `sd`, and the other buffers as in `s`. -/
structure LoadedBy (sd : BufId) (q : Bits) (n : Nat) (s : State) (run : List Response × State) : Prop where
  content : run.2.buf sd = q
  others : ∀ b, b ≠ sd → run.2.buf b = s.buf b
  allOk : ∀ r ∈ run.1, r.status = .ok
  count : run.1.length = n

theorem LoadedBy.nil (sd : BufId) (s : State) : LoadedBy sd (s.buf sd) 0 s (runWords [] s) where
  content := buf_takeResponse s sd
  others b _ := buf_takeResponse s b
  allOk := by simp [runWords]
  count := rfl

/-- One more command in front, which answers OK and writes only the buffer being loaded. -/
theorem LoadedBy.cons {i : Instr} {sd : BufId} {q q' : Bits} {n : Nat} {d : Word} {s : State} {ws : List Word}
    (hi : i.WellFormed)
    (h : exec i (s.accept s.input) = .next (respond .ok d ((s.accept s.input).setBuf sd q')))
    (hrest : ∀ t : State, t.halted = s.halted → t.cap = s.cap → t.buf sd = q' → LoadedBy sd q n t (runWords ws t)) :
    LoadedBy sd q (n + 1) s (runWords (encode i :: ws) s) := by
  obtain ⟨hcontent, hothers, hok, hcount⟩ := hrest (respond .ok d ((s.accept s.input).setBuf sd q'))
    (by simp) (by simp) (by simp)
  rw [runWords_encode_cons ws hi h (rsp_respond ..)]
  refine ⟨hcontent, fun b hb => ?_, List.forall_mem_cons.mpr ⟨rfl, hok⟩, congrArg (· + 1) hcount⟩
  rw [hothers b hb, buf_respond, buf_setBuf_ne _ sd b q' hb, buf_accept]

@[simp] theorem pushChunks_nil (sd : BufId) (fuel : Nat) : pushChunks sd fuel [] = [] := by cases fuel <;> rfl

theorem pushChunks_succ {q : Bits} (sd : BufId) (fuel : Nat) (hq : q ≠ []) :
    pushChunks sd (fuel + 1) q = .push sd (q.take 16) :: pushChunks sd fuel (q.drop 16) := by
  simp [pushChunks, hq]

/-- The PUSHes append the sequence, sixteen bits each, when the result fits. -/
theorem loadedBy_pushChunks {sd : BufId} {fuel : Nat} {q : Bits} {s : State} (hrun : s.halted = false)
    (hfit : (s.buf sd).length + q.length ≤ s.cap) (hfuel : q.length ≤ fuel) :
    LoadedBy sd (s.buf sd ++ q) ((q.length + 15) / 16) s (runWords ((pushChunks sd fuel q).map encode) s) := by
  induction fuel generalizing q s with
  | zero =>
    obtain rfl := List.eq_nil_of_length_eq_zero (Nat.le_zero.mp hfuel)
    simpa using LoadedBy.nil sd s
  | succ fuel ih =>
    by_cases hq : q = []
    · subst hq
      simpa using LoadedBy.nil sd s
    · have hpos : 0 < q.length := List.length_pos_iff.mpr hq
      have htake : (q.take 16).length = min 16 q.length := List.length_take
      have hdrop : (q.drop 16).length = q.length - 16 := List.length_drop
      have hpush := exec_push_of_fits (s := s.accept s.input) (sd := sd) (lit := q.take 16) hrun
        (by rw [buf_accept]; dsimp only; omega)
      rw [buf_accept] at hpush
      rw [pushChunks_succ sd fuel hq, List.map_cons,
        show (q.length + 15) / 16 = ((q.drop 16).length + 15) / 16 + 1 by omega]
      refine .cons (decide_eq_true (by omega)) hpush fun t hhalted hcap hbuf => ?_
      have hload := ih (q := q.drop 16) (hhalted.trans hrun)
        (by rw [hbuf, hcap, List.length_append]; omega) (by omega)
      rwa [hbuf, List.append_assoc, List.take_append_drop] at hload

/-- Settles O59: CLR leaves the empty buffer, the PUSHes append the sequence to it. -/
theorem loadBitsLoadsTheSequence : Obligations.LoadBitsLoadsTheSequence := by
  intro sd q s hrun hfit
  have hload : LoadedBy sd q ((q.length + 15) / 16 + 1) s (runWords ((loadBits sd q).map encode) s) := by
    refine .cons rfl (exec_clr_of_running sd hrun) fun t hhalted hcap hbuf => ?_
    have hpushes := loadedBy_pushChunks (sd := sd) (q := q) (hhalted.trans hrun)
      (by simpa [hbuf, hcap] using hfit) le_rfl
    rwa [hbuf, List.nil_append] at hpushes
  obtain ⟨hcontent, hothers, hok, hcount⟩ := hload
  exact ⟨hcontent, hothers, hok, hcount.trans (Nat.add_comm ..)⟩

end Sys2Proof.Machine
end

section
/-! Commands as text (30_encoding.md R88): what is written for a command reads back. A line is cut at the blank after
the mnemonic and at the commas, which works because mnemonics and operands are words of letters and digits. -/

namespace Sys2Proof.Machine

/-! ## Words of letters and digits -/

/-- A mnemonic or an operand as written: letters and digits, at least one. -/
structure Token (t : Text) : Prop where
  ne_nil : t ≠ []
  alphanum : t.all Char.isAlphanum = true

theorem Token.not_mem {t : Text} {c : Char} (ht : Token t) (hc : c.isAlphanum = false) : c ∉ t :=
  fun h => Bool.false_ne_true (hc.symm.trans (List.all_eq_true.mp ht.alphanum c h))

theorem Token.reverse {t : Text} (ht : Token t) : Token t.reverse :=
  ⟨by simpa using ht.ne_nil, by simpa using ht.alphanum⟩

theorem token_opText (op : Op) : Token (opText op) := by cases op <;> exact ⟨by decide, by decide⟩

theorem token_bufText (b : BufId) : Token (bufText b) := by cases b <;> exact ⟨by decide, by decide⟩

theorem token_srText (r : SReg) : Token (srText r) := by cases r <;> exact ⟨by decide, by decide⟩

theorem isDigit_of_mem_numText {v : Nat} {c : Char} (h : c ∈ numText v) : c.isDigit = true :=
  Nat.isDigit_of_mem_toDigits (by decide) (by decide) h

theorem token_numText (v : Nat) : Token (numText v) :=
  ⟨Nat.toDigits_ne_nil, List.all_eq_true.mpr fun c hc => by simp [Char.isAlphanum, isDigit_of_mem_numText hc]⟩

theorem token_litText (q : Bits) : Token (litText q) := by
  refine ⟨List.cons_ne_nil _ _, List.all_eq_true.mpr ?_⟩
  simp only [litText, List.forall_mem_cons, List.forall_mem_map]
  refine ⟨by decide, by decide, fun b _ => ?_⟩
  cases b <;> decide

theorem token_operandTexts (i : Instr) : ∀ t ∈ operandTexts i, Token t := by
  cases i <;>
    simp only [operandTexts, List.forall_mem_cons, List.not_mem_nil, false_implies, implies_true, and_true,
      token_bufText, token_srText, token_numText, token_litText]

theorem operandTexts_ne_nil (i : Instr) : operandTexts i ≠ [] := by cases i <;> exact List.cons_ne_nil _ _

/-! ## Reading one operand -/

theorem digitVal?_of_isDigit {c : Char} (h : c.isDigit = true) : digitVal? c = some (c.toNat - '0'.toNat) := by
  simp only [Char.isDigit, Bool.and_eq_true, decide_eq_true_eq] at h
  exact if_pos h

theorem toNat_sub_lt_of_isDigit {c : Char} (h : c.isDigit = true) : c.toNat - '0'.toNat < 10 := by
  have h9 : c.toNat ≤ 57 := (Char.isDigit_iff_toNat.mp h).2
  have h0 : '0'.toNat = 48 := rfl
  omega

/-- On decimal digits the reader computes the library's value. -/
theorem digitsVal?_ten {t : Text} (h : ∀ c ∈ t, c.isDigit = true) (v : Nat) :
    digitsVal? 10 v t = some (Nat.ofDigitChars 10 t v) := by
  induction t generalizing v with
  | nil => rfl
  | cons c cs ih =>
    obtain ⟨hc, hcs⟩ := List.forall_mem_cons.mp h
    simp only [digitsVal?, digitVal?_of_isDigit hc, toNat_sub_lt_of_isDigit hc, if_true, ih hcs, Nat.ofDigitChars_cons,
      Nat.mul_comm v]

/-- Text of decimal digits is no hexadecimal number: its second character is no `x`. -/
theorem readNum?_of_digits {t : Text} (h : ∀ c ∈ t, c.isDigit = true) (h0 : t ≠ []) :
    readNum? t = digitsVal? 10 0 t := by
  have hx : 'x' ∉ t := fun hx => absurd (h 'x' hx) (by decide)
  unfold readNum?
  split
  · exact absurd rfl h0
  · simp at hx
  · simp at hx
  · rfl

@[simp] theorem readNum?_numText (v : Nat) : readNum? (numText v) = some v := by
  rw [readNum?_of_digits (fun _ => isDigit_of_mem_numText) (token_numText v).ne_nil,
    digitsVal?_ten fun _ => isDigit_of_mem_numText]
  exact congrArg some Nat.ofDigitChars_ten_toDigits

@[simp] theorem readBuf?_bufText (b : BufId) : readBuf? (bufText b) = some b := by cases b <;> decide

@[simp] theorem readSreg?_srText (r : SReg) : readSreg? (srText r) = some r := by cases r <;> decide

@[simp] theorem readLit?_litText (q : Bits) : readLit? (litText q) = some q := by
  simp only [litText, readLit?]
  induction q with
  | nil => rfl
  | cons b q ih => cases b <;> simp [readBits?, ih]

/-- The operands of a well-formed command read back, one by one. -/
theorem readCommand?_operandTexts {i : Instr} (h : i.WellFormed) : readCommand? i.op (operandTexts i) = some i := by
  cases i <;> simp [readCommand?, operandTexts, Instr.op, Option.filter, h]

theorem find?_opText (op : Op) : Op.all.find? (fun op' => opText op' == opText op) = some op := by cases op <;> decide

theorem readLine?_operandTexts {i : Instr} (h : i.WellFormed) : readLine? (opText i.op) (operandTexts i) = some [i] := by
  simp only [readLine?, find?_opText, readCommand?_operandTexts h, Option.map_some]

/-! ## Cutting a line -/

theorem cutAt_of_not_mem {sep : Char} {t : Text} (h : sep ∉ t) : cutAt sep t = [t] := by
  induction t with
  | nil => rfl
  | cons c cs ih =>
    obtain ⟨hc, hcs⟩ := List.ne_and_not_mem_of_not_mem_cons h
    simp only [cutAt, Ne.symm hc, if_false, ih hcs]

theorem cutAt_append {sep : Char} {t : Text} (h : sep ∉ t) (rest : Text) :
    cutAt sep (t ++ sep :: rest) = t :: cutAt sep rest := by
  induction t with
  | nil => simp [cutAt]
  | cons c cs ih =>
    obtain ⟨hc, hcs⟩ := List.ne_and_not_mem_of_not_mem_cons h
    simp only [List.cons_append, cutAt, Ne.symm hc, if_false, ih hcs]

theorem dropWhile_blank_of_token {t : Text} (ht : Token t) (rest : Text) :
    (t ++ rest).dropWhile (· == ' ') = t ++ rest := by
  cases t with
  | nil => exact absurd rfl ht.ne_nil
  | cons c cs =>
    have hc : c ≠ ' ' := (List.ne_of_not_mem_cons (ht.not_mem (c := ' ') (by decide))).symm
    exact List.dropWhile_cons_of_neg (by simpa using hc)

/-- Text that starts and ends with a token has no blanks at its ends. -/
theorem trimText_of_token_ends {t u a b : Text} (ht : Token t) (hu : Token u) (h : t ++ a = b ++ u) :
    trimText (t ++ a) = t ++ a := by
  rw [trimText, dropWhile_blank_of_token ht, h, List.reverse_append, dropWhile_blank_of_token hu.reverse,
    ← List.reverse_append, List.reverse_reverse]

theorem trimText_blank_token {t : Text} (ht : Token t) : trimText (' ' :: t) = t := by
  have h := trimText_of_token_ends (a := []) (b := []) ht ht (List.append_nil t)
  rw [List.append_nil] at h
  rwa [trimText, List.dropWhile_cons_of_pos (by decide), ← trimText]

/-- The text of the operands, each after a blank, cut at the commas. -/
theorem cutAt_operands {ts : List Text} (hts : ∀ t ∈ ts, Token t) (h0 : ts ≠ []) :
    cutAt ',' (' ' :: List.intercalate [',', ' '] ts) = ts.map (' ' :: ·) := by
  induction ts with
  | nil => exact absurd rfl h0
  | cons t ts ih =>
    obtain ⟨ht, hts⟩ := List.forall_mem_cons.mp hts
    have hcut : ',' ∉ ' ' :: t := List.not_mem_cons_of_ne_of_not_mem (by decide) (ht.not_mem (by decide))
    cases ts with
    | nil => rw [List.intercalate_singleton, cutAt_of_not_mem hcut, List.map_singleton]
    | cons t' ts =>
      have happ : ' ' :: List.intercalate [',', ' '] (t :: t' :: ts) =
          (' ' :: t) ++ ',' :: ' ' :: List.intercalate [',', ' '] (t' :: ts) := by
        simp [List.intercalate_cons_cons]
      rw [happ, cutAt_append hcut, ih hts (List.cons_ne_nil _ _), ← List.map_cons]

theorem trim_cutAt_operands {ts : List Text} (hts : ∀ t ∈ ts, Token t) (h0 : ts ≠ []) :
    (cutAt ',' (' ' :: List.intercalate [',', ' '] ts)).map trimText = ts := by
  rw [cutAt_operands hts h0, List.map_map]
  exact (List.map_congr_left fun t ht => trimText_blank_token (hts t ht)).trans (List.map_id' ts)

/-- The text of the operands ends with a token. -/
theorem exists_last_operand {ts : List Text} (hts : ∀ t ∈ ts, Token t) (h0 : ts ≠ []) :
    ∃ a u, Token u ∧ List.intercalate [',', ' '] ts = a ++ u := by
  induction ts with
  | nil => exact absurd rfl h0
  | cons t ts ih =>
    obtain ⟨ht, hts⟩ := List.forall_mem_cons.mp hts
    cases ts with
    | nil => exact ⟨[], t, ht, List.intercalate_singleton⟩
    | cons t' ts =>
      obtain ⟨a, u, hu, h⟩ := ih hts (List.cons_ne_nil _ _)
      exact ⟨t ++ [',', ' '] ++ a, u, hu, by rw [List.intercalate_cons_cons, h, List.append_assoc _ a]⟩

/-- No operand starts a comment. -/
theorem semicolon_not_mem_operands {ts : List Text} (hts : ∀ t ∈ ts, Token t) :
    ';' ∉ List.intercalate [',', ' '] ts := by
  induction ts with
  | nil => exact List.not_mem_nil
  | cons t ts ih =>
    obtain ⟨ht, hts⟩ := List.forall_mem_cons.mp hts
    have hsemi : ';' ∉ t := ht.not_mem (by decide)
    cases ts with
    | nil => rwa [List.intercalate_singleton]
    | cons t' ts => simp [List.intercalate_cons_cons, hsemi, ih hts]

/-- A line without a comment, cut at the blank after its first token. -/
theorem assembleLine_of_token {name rest : Text} (hname : Token name) (hrest : ';' ∉ rest)
    (htrim : trimText (name ++ ' ' :: rest) = name ++ ' ' :: rest) :
    assembleLine (name ++ ' ' :: rest) = readLine? name ((cutAt ',' (' ' :: rest)).map trimText) := by
  have hline : (name ++ ' ' :: rest).takeWhile (· != ';') = name ++ ' ' :: rest := by
    refine List.takeWhile_eq_self_iff.mpr fun c hc => bne_iff_ne.mpr ?_
    rintro rfl
    simp [hname.not_mem (c := ';') (by decide), hrest] at hc
  have hcut : (name ++ ' ' :: rest).takeWhile (· != ' ') = name := by
    rw [List.takeWhile_append_of_pos fun c hc => bne_iff_ne.mpr fun h => hname.not_mem (by decide) (h ▸ hc)]
    simp
  unfold assembleLine
  rw [hline, htrim]
  split
  · next h => simp at h
  · next c cs h =>
    rw [← h]
    simp only [hcut, List.drop_left]

/-- Settles O60: the line is cut into the mnemonic and the operands, and these read back. -/
theorem assembledTextReadsBack : Obligations.AssembledTextReadsBack := by
  intro i hi
  have hts := token_operandTexts i
  have h0 := operandTexts_ne_nil i
  obtain ⟨a, u, hu, hlast⟩ := exists_last_operand hts h0
  have htrim := trimText_of_token_ends (a := ' ' :: (a ++ u)) (b := opText i.op ++ ' ' :: a) (token_opText i.op) hu
    (by simp)
  rw [← hlast] at htrim
  rw [asmText, assembleLine_of_token (token_opText i.op) (semicolon_not_mem_operands hts) htrim,
    trim_cutAt_operands hts h0, readLine?_operandTexts hi]

end Sys2Proof.Machine
end

section
/-! MMUL (40_gf2_matrix_engine.md R100 to R105): the product entry by entry, and the two ways to take a mod-2 sum. -/

namespace Sys2Proof.Machine

/-- The chain of XORs is the integer sum reduced mod 2 (R103). -/
theorem gf2Sum_map_eq_parity {α : Type} (f : α → Bit) (l : List α) :
    gf2Sum (l.map f) = decide (l.countP f % 2 = 1) := by
  induction l with
  | nil => rfl
  | cons a l ih =>
    have hcons : gf2Sum ((a :: l).map f) = (f a ^^ gf2Sum (l.map f)) := rfl
    rw [hcons, ih, List.countP_cons]
    rcases Nat.mod_two_eq_zero_or_one (l.countP f) with hl | hl <;> cases f a <;> simp [Nat.add_mod, hl]

/-- Row-major order (R105): in a sequence of rows of length `c`, element `j` of row `i` stands at index `i * c + j`. -/
theorem getElem?_flatMap_range {α : Type} {row : Nat → List α} {c i j r : Nat} (hlen : ∀ i, (row i).length = c)
    (hi : i < r) (hj : j < c) : ((List.range r).flatMap row)[i * c + j]? = (row i)[j]? := by
  have hrows : ∀ n, ((List.range n).flatMap row).length = n * c := fun n => by simp [List.length_flatMap, hlen]
  induction r with
  | zero => exact absurd hi (Nat.not_lt_zero i)
  | succ r ih =>
    rw [List.range_succ, List.flatMap_append, List.flatMap_singleton]
    rcases Nat.lt_succ_iff_lt_or_eq.mp hi with hlt | rfl
    · have hle : (i + 1) * c ≤ r * c := Nat.mul_le_mul_right c hlt
      have hidx : i * c + j < r * c := by rw [Nat.succ_mul] at hle; omega
      rw [List.getElem?_append_left (hidx.trans_eq (hrows r).symm), ih hlt]
    · rw [List.getElem?_append_right (by rw [hrows]; omega), hrows, Nat.add_sub_cancel_left]

/-- Entry `(i, j)` of a product at its place in the sequence (R101, R105). -/
theorem getElem?_gf2Product {A B : BitMatrix} {i j : Nat} (hi : i < A.rows) (hj : j < B.cols) :
    (gf2Product A B).entries[i * B.cols + j]? = some (gf2Dot A B i j) := by
  rw [gf2Product, getElem?_flatMap_range (by simp) hi hj, List.getElem?_map, List.getElem?_range hj, Option.map_some]

/-- An entry of a product is the parity of its row-column sum (R101, R103). -/
theorem gf2Dot_eq_parity (A B : BitMatrix) (i j : Nat) :
    gf2Dot A B i j = decide ((List.range A.cols).countP (fun t => A.entry i t && B.entry t j) % 2 = 1) :=
  gf2Sum_map_eq_parity _ _

theorem gf2Mul_of_cols_eq_rows {A B : BitMatrix} (h : A.cols = B.rows) : gf2Mul A B = some (gf2Product A B) := if_pos h

/-- MMUL past its three checks (R104). -/
theorem exec_mmul_of_shapes {s : State} {sa sb : BufId} {m n p : Nat} (sd : BufId) (hrun : s.halted = false)
    (ha : (s.buf sa).length = m * n) (hb : (s.buf sb).length = n * p) (hcap : m * p ≤ s.cap) :
    exec (.mmul sd sa sb m n n p) s =
      .next (respond .ok (BitVec.ofNat 32 (m * p))
        (s.setBuf sd (gf2Product ⟨m, n, s.buf sa⟩ ⟨n, p, s.buf sb⟩).entries)) := by
  have hshape : gf2Mul ⟨m, n, s.buf sa⟩ ⟨n, p, s.buf sb⟩ = some _ := gf2Mul_of_cols_eq_rows rfl
  have hlens : ¬((s.buf sa).length ≠ m * n ∨ (s.buf sb).length ≠ n * p) := by simp [ha, hb]
  rw [exec_mmul, execMmul, hshape]
  dsimp only
  rw [if_neg hlens, if_neg (Nat.not_lt.mpr hcap), perform_ok _ _ _ _ hrun]

/-- Settles O29: the buffer MMUL writes is the row-major product, whose entries are the parities of the row-column
sums. -/
theorem mmulCompletesOnMatchingShapes : Obligations.MmulCompletesOnMatchingShapes := by
  intro sd sa sb m n p s hrun ha hb hcap
  refine ⟨_, exec_mmul_of_shapes sd hrun ha hb hcap, length_gf2Product _ _, fun i j hi hj => ?_⟩
  exact (getElem?_gf2Product hi hj).trans (congrArg some (gf2Dot_eq_parity _ _ i j))

end Sys2Proof.Machine
end

section
/-! The code tables (41_code_tables.md R110 to R116): LDG and LDHT; and the distance of the code. The code is linear, so
two codewords differ where the codeword of the messages' difference has ones. -/

namespace Sys2Proof.Machine

/-! ## LDG and LDHT -/

/-- LDG past its capacity check (R115). -/
theorem exec_ldg_of_fits {s : State} (sd : BufId) (hrun : s.halted = false) (hfit : 28 ≤ s.cap) :
    exec (.ldg sd) s = .next (respond .ok 28 (s.setBuf sd codeG.entries)) := by
  rw [exec_ldg, execLdg, if_neg (Nat.not_lt.mpr hfit)]
  exact perform_ok (.ldg sd) s _ 28 hrun

/-- LDHT past its capacity check (R116). -/
theorem exec_ldht_of_fits {s : State} (sd : BufId) (hrun : s.halted = false) (hfit : 21 ≤ s.cap) :
    exec (.ldht sd) s = .next (respond .ok 21 (s.setBuf sd codeHT.entries)) := by
  rw [exec_ldht, execLdht, if_neg (Nat.not_lt.mpr hfit)]
  exact perform_ok (.ldht sd) s _ 21 hrun

/-- Settles O30: both tables fit in the least capacity, and their entries are the printed rows one after another. -/
theorem tableLoadsComplete : Obligations.TableLoadsComplete := by
  intro sd s hrun hcap
  obtain ⟨hmin, -⟩ := hcap
  exact ⟨exec_ldg_of_fits sd hrun (by omega), exec_ldht_of_fits sd hrun (by omega)⟩

/-! ## Differences of sequences -/

/-- Sequences differ in as many places as their difference has ones. -/
theorem bitDist_eq_count_zipWith_xor (q r : Bits) : bitDist q r = (List.zipWith xor q r).count true := by
  induction q generalizing r with
  | nil => simp
  | cons a q ih =>
    cases r with
    | nil => simp
    | cons b r =>
      rw [bitDist_cons, ih, List.zipWith_cons_cons, List.count_cons, Nat.add_comm]
      cases a ^^ b <;> rfl

/-- Sequences of one length whose difference is zero are equal. -/
theorem eq_of_zipWith_xor_eq_zeros {q r : Bits} {n : Nat} (hlen : q.length = r.length)
    (h : List.zipWith xor q r = zeros n) : q = r := by
  have hdiff : ∀ b ∈ List.zipWith xor q r, b = false := fun b hb => List.eq_of_mem_replicate (h ▸ hb)
  refine List.ext_getElem hlen fun i hq hr => ?_
  have hi := hdiff _ (List.getElem_mem (n := i) (by simp [hq, hr]))
  rw [List.getElem_zipWith] at hi
  exact bne_eq_false_iff_eq.mp hi

/-! ## The code -/

/-- The message and its three parity bits (R121). -/
theorem encodeBlock_four (m0 m1 m2 m3 : Bit) :
    encodeBlock [m0, m1, m2, m3] = [m0, m1, m2, m3, m0 ^^ m2 ^^ m3, m0 ^^ m1 ^^ m3, m0 ^^ m1 ^^ m2] := by
  revert m0 m1 m2 m3
  decide

/-- The code is linear (R121): each bit of a codeword is an XOR of message bits. -/
theorem encodeBlock_zipWith_xor {a b : Bits} (ha : a.length = 4) (hb : b.length = 4) :
    encodeBlock (List.zipWith xor a b) = List.zipWith xor (encodeBlock a) (encodeBlock b) := by
  obtain ⟨a0, a1, a2, a3, rfl⟩ := List.length_eq_four.mp ha
  obtain ⟨b0, b1, b2, b3, rfl⟩ := List.length_eq_four.mp hb
  simp only [List.zipWith_cons_cons, List.zipWith_nil_left, encodeBlock_four, Bool.xor_assoc, Bool.xor_left_comm]

/-- Every codeword but the zero word has at least three ones. -/
theorem three_le_count_encodeBlock {m : Bits} (hm : m.length = 4) (h0 : m ≠ zeros 4) :
    3 ≤ (encodeBlock m).count true := by
  obtain ⟨m0, m1, m2, m3, rfl⟩ := List.length_eq_four.mp hm
  revert m0 m1 m2 m3
  decide

/-- Different codewords differ in at least three places: their difference is the codeword of the messages' difference. -/
theorem three_le_bitDist_encodeBlock {m m' : Bits} (hm : m.length = 4) (hm' : m'.length = 4) (hne : m ≠ m') :
    3 ≤ bitDist (encodeBlock m) (encodeBlock m') := by
  rw [bitDist_eq_count_zipWith_xor, ← encodeBlock_zipWith_xor hm hm']
  exact three_le_count_encodeBlock (by simp [hm, hm']) (mt (eq_of_zipWith_xor_eq_zeros (hm.trans hm'.symm)) hne)

/-- `G x HT` has only zero entries (R113). -/
theorem gf2Product_codeG_codeHT : gf2Product codeG codeHT = ⟨4, 3, zeros 12⟩ := by decide

/-- Settles O49, the distance by the linearity of the code; the product and the printed map are computed. -/
theorem codeTablesAreDualWithDistanceThree : Obligations.CodeTablesAreDualWithDistanceThree := by
  refine ⟨?_, by decide, fun m m' => three_le_bitDist_encodeBlock⟩
  rw [gf2Mul_of_cols_eq_rows rfl, gf2Product_codeG_codeHT]

end Sys2Proof.Machine
end

section
/-! The block encoder (42_block_encoder.md R121 to R125) and the stream decoder beside it (43_syndrome_decoder.md
R138): a stream is coded block by block, so its code is read off by induction over its blocks. -/

namespace Sys2Proof.Machine

/-! ## ENCB and ENC -/

/-- ENCB past its length check (R122). -/
theorem exec_encb_of_length {s : State} {sa : BufId} (sd : BufId) (hrun : s.halted = false)
    (hlen : (s.buf sa).length = 4) :
    exec (.encb sd sa) s = .next (respond .ok 7 (s.setBuf sd (encodeBlock (s.buf sa)))) := by
  rw [exec_encb, execEncb, if_neg (not_not.mpr hlen)]
  exact perform_ok (.encb sd sa) s _ 7 hrun

/-- ENC past its length and capacity checks (R124). -/
theorem exec_enc_of_fits {s : State} {sa : BufId} (sd : BufId) (hrun : s.halted = false)
    (hlen : (s.buf sa).length % 4 = 0) (hfit : encodedLength (s.buf sa).length ≤ s.cap) :
    exec (.enc sd sa) s =
      .next (respond .ok (BitVec.ofNat 32 (encodedLength (s.buf sa).length))
        (s.setBuf sd (encodeStream (s.buf sa)))) := by
  rw [exec_enc, execEnc]
  dsimp only
  rw [if_neg (not_not.mpr hlen), if_neg (Nat.not_lt.mpr hfit), perform_ok _ _ _ _ hrun]

/-! ## Sub-sequences and padding at a border -/

theorem slice_append_zero {p : Bits} {n : Nat} (q : Bits) (hp : p.length = n) : slice (p ++ q) 0 n = p := by
  rw [slice, List.drop_zero, List.take_left' hp]

theorem slice_append_add {p : Bits} {n : Nat} (q : Bits) (a cnt : Nat) (hp : p.length = n) :
    slice (p ++ q) (n + a) cnt = slice q a cnt := by
  rw [slice, slice, ← List.drop_drop, List.drop_left' hp]

/-- A whole number of multiples in front does not change the pad count. -/
theorem padCount_add_of_mod_eq_zero {k n : Nat} (len : Nat) (hk : k % n = 0) :
    padCount (k + len) n = padCount len n := by
  rw [padCount, padCount, Nat.add_mod, hk, Nat.zero_add, Nat.mod_mod]

theorem padTo_append {a : Bits} {n : Nat} (b : Bits) (ha : a.length % n = 0) : padTo (a ++ b) n = a ++ padTo b n := by
  rw [padTo, padTo, List.length_append, padCount_add_of_mod_eq_zero _ ha, List.append_assoc]

theorem padTo_eq_self {q : Bits} {n : Nat} (hq : q.length % n = 0) : padTo q n = q := by
  rw [padTo, padCount, hq, Nat.sub_zero, Nat.mod_self, zeros_zero, List.append_nil]

theorem length_padTo_mod_four {q : Bits} (hq : q.length % 4 = 0) : (padTo q 28).length % 4 = 0 := by
  have h28 := add_padCount_mod q.length (show 1 ≤ 28 by decide)
  rw [length_padTo]
  omega

/-! ## Streams of 4-bit blocks -/

/-- Induction over the blocks of a message stream. -/
theorem messages_induction {P : (q : Bits) → q.length % 4 = 0 → Prop} (nil : P [] rfl)
    (cons : ∀ m0 m1 m2 m3 q hq h, P q hq → P (m0 :: m1 :: m2 :: m3 :: q) h)
    (q : Bits) (h : q.length % 4 = 0) : P q h := by
  match q, h with
  | [], _ => exact nil
  | [_], h | [_, _], h | [_, _, _], h => simp at h
  | m0 :: m1 :: m2 :: m3 :: r, h =>
    have hr : r.length % 4 = 0 := (Nat.add_mod_right _ 4).symm.trans h
    exact cons m0 m1 m2 m3 r hr h (messages_induction nil cons r hr)

@[simp] theorem encodeBlocks_nil : encodeBlocks [] = [] := rfl

theorem encodeBlocks_cons (m0 m1 m2 m3 : Bit) (q : Bits) :
    encodeBlocks (m0 :: m1 :: m2 :: m3 :: q) = encodeBlock [m0, m1, m2, m3] ++ encodeBlocks q := rfl

theorem encodeBlocks_append {a : Bits} (b : Bits) (ha : a.length % 4 = 0) :
    encodeBlocks (a ++ b) = encodeBlocks a ++ encodeBlocks b := by
  induction a, ha using messages_induction with
  | nil => rfl
  | cons m0 m1 m2 m3 q _ _ ih => simp only [List.cons_append, encodeBlocks_cons, ih, List.append_assoc]

/-- Block `j` of the code is the codeword of block `j` of the stream (R123). -/
theorem slice_encodeBlocks {q : Bits} {j : Nat} (hq : q.length % 4 = 0) (hj : 7 * j < (encodeBlocks q).length) :
    slice (encodeBlocks q) (7 * j) 7 = encodeBlock (slice q (4 * j) 4) := by
  induction q, hq using messages_induction generalizing j with
  | nil => exact absurd hj (Nat.not_lt_zero _)
  | cons m0 m1 m2 m3 q _ _ ih =>
    rw [encodeBlocks_cons] at hj ⊢
    cases j with
    | zero => exact slice_append_zero _ (length_encodeBlock _)
    | succ j =>
      rw [List.length_append, length_encodeBlock] at hj
      have hcode := slice_append_add (encodeBlocks q) (7 * j) 7 (length_encodeBlock [m0, m1, m2, m3])
      have hmsg := slice_append_add (p := [m0, m1, m2, m3]) q (4 * j) 4 rfl
      rw [Nat.mul_succ, Nat.add_comm, hcode, Nat.mul_succ, Nat.add_comm (4 * j), ih (by omega)]
      exact congrArg encodeBlock hmsg.symm

/-! ## Decoding a code -/

theorem decodeBlock_encodeBlock {m : Bits} (hm : m.length = 4) : decodeBlock (encodeBlock m) = some m := by
  obtain ⟨m0, m1, m2, m3, rfl⟩ := List.length_eq_four.mp hm
  revert m0 m1 m2 m3
  decide

@[simp] theorem decodeStream_nil : decodeStream [] = some [] := rfl

/-- The stream decoder works block by block (R138). -/
theorem decodeStream_append {a : Bits} (b : Bits) (ha : a.length % 7 = 0) :
    decodeStream (a ++ b) = (decodeStream a).bind fun x => (decodeStream b).map (x ++ ·) := by
  refine blocks_induction (P := fun a => decodeStream (a ++ b) = (decodeStream a).bind fun x =>
    (decodeStream b).map (x ++ ·)) ?_ (fun r0 r1 r2 r3 r4 r5 r6 q _ ih => ?_) a ha
  · simp
  · simp only [List.cons_append, decodeStream_cons, ih]
    simp [Option.bind_assoc, Option.bind_map, Function.comp_def]

/-- The stream decoder on one block. -/
theorem decodeStream_of_length_seven {r : Bits} (hr : r.length = 7) : decodeStream r = decodeBlock r := by
  obtain rfl | ⟨r0, r1, r2, r3, r4, r5, r6, q, rfl, -⟩ := blocks_cases (q := r) (by rw [hr])
  · cases hr
  · obtain rfl : q = [] := by simpa using hr
    rw [decodeStream_cons, decodeStream_nil]
    simp

theorem decodeStream_encodeBlocks {q : Bits} (hq : q.length % 4 = 0) : decodeStream (encodeBlocks q) = some q := by
  induction q, hq using messages_induction with
  | nil => rfl
  | cons m0 m1 m2 m3 q _ _ ih =>
    rw [encodeBlocks_cons, decodeStream_append _ (by rw [length_encodeBlock]), ih,
      decodeStream_of_length_seven (length_encodeBlock _), decodeBlock_encodeBlock rfl]
    rfl

/-! ## The statements -/

/-- Settles O32: the code of the padded stream, read block by block. -/
theorem encCompletesBlockByBlock : Obligations.EncCompletesBlockByBlock := by
  intro sd sa s hrun hlen hfit
  have hq := length_encodeStream _ hlen
  exact ⟨encodeStream (s.buf sa), hq ▸ exec_enc_of_fits sd hrun hlen hfit, hq,
    fun j hj => slice_encodeBlocks (length_padTo_mod_four hlen) hj⟩

/-- Settles O52: whole frames in front leave the padding of the rest as it is, and both coders go block by block. -/
theorem streamsAreCodedBlockByBlock : Obligations.StreamsAreCodedBlockByBlock := by
  refine ⟨fun a b ha _ => ?_, fun a b ha _ => decodeStream_append b ha,
    fun q hq => decodeStream_encodeBlocks (length_padTo_mod_four hq)⟩
  rw [encodeStream, encodeStream, encodeStream, padTo_append b ha, padTo_eq_self ha, encodeBlocks_append _ (by omega)]

/-- Settles O31: the four bits are the message of R121's equations. -/
theorem encbCompletesOnFourBits : Obligations.EncbCompletesOnFourBits := by
  intro sd sa m0 m1 m2 m3 s hrun hbuf
  rw [exec_encb_of_length sd hrun (congrArg List.length hbuf), hbuf, encodeBlock_four]

/-- Settles O46: the equations of R121 and the linearity they give. -/
theorem codewordBitsAndLinearity : Obligations.CodewordBitsAndLinearity :=
  ⟨encodeBlock_four, fun _ _ => encodeBlock_zipWith_xor, encodeBlock_four false false false false⟩

end Sys2Proof.Machine
end

section
/-! The syndrome decoder (43_syndrome_decoder.md R130 to R139). `decodeBlock` is one flip at the position the syndrome
names, if any. The syndrome does not see a codeword, so decoding a codeword with errors is decoding the errors and adding
the message; what the decoder does with errors is then a question about error patterns alone. -/

namespace Sys2Proof.Machine

/-! ## Adding a sequence bit by bit -/

theorem zipWith_xor_zeros {q : Bits} {n : Nat} (hq : q.length = n) : List.zipWith xor q (zeros n) = q := by
  subst hq
  refine List.ext_getElem (by simp) fun i _ _ => ?_
  simp [zeros]

/-- A flip of a sum is a flip of its second term. -/
theorem flipFrom_zipWith_xor (F : List Nat) (i : Nat) (q r : Bits) :
    flipFrom F i (List.zipWith xor q r) = List.zipWith xor q (flipFrom F i r) := by
  induction q generalizing i r with
  | nil => rfl
  | cons a q ih =>
    cases r with
    | nil => rfl
    | cons b r => simp [flipFrom, ih]

theorem flipAt_zipWith_xor (F : List Nat) (q r : Bits) :
    flipAt (List.zipWith xor q r) F = List.zipWith xor q (flipAt r F) := flipFrom_zipWith_xor F 0 q r

/-- A flip adds the error pattern of its indices. -/
theorem flipAt_eq_zipWith_xor {q : Bits} {n : Nat} (F : List Nat) (hq : q.length = n) :
    flipAt q F = List.zipWith xor q (flipAt (zeros n) F) := by
  rw [← flipAt_zipWith_xor, zipWith_xor_zeros hq]

theorem flipAt_nil (q : Bits) : flipAt q [] = q :=
  List.ext_getElem? fun j => by simp [getElem?_flipAt]

/-- Adding a sequence changes as many bits as it has ones. -/
theorem bitDist_zipWith_xor {q d : Bits} (hlen : q.length = d.length) :
    bitDist q (List.zipWith xor q d) = d.count true := by
  induction q generalizing d with
  | nil =>
    obtain rfl := List.eq_nil_of_length_eq_zero hlen.symm
    rfl
  | cons a q ih =>
    cases d with
    | nil => cases hlen
    | cons b d =>
      rw [List.zipWith_cons_cons, bitDist_cons, ih (Nat.succ.inj hlen), List.count_cons, Nat.add_comm]
      cases a <;> cases b <;> rfl

/-! ## The syndrome -/

/-- The three sums of received bits (R132). -/
theorem syndrome_seven (r0 r1 r2 r3 r4 r5 r6 : Bit) :
    syndrome [r0, r1, r2, r3, r4, r5, r6] = [r0 ^^ r2 ^^ r3 ^^ r4, r0 ^^ r1 ^^ r3 ^^ r5, r0 ^^ r1 ^^ r2 ^^ r6] := by
  revert r0 r1 r2 r3 r4 r5 r6
  decide

theorem exists_of_length_seven {r : Bits} (hr : r.length = 7) :
    ∃ r0 r1 r2 r3 r4 r5 r6, r = [r0, r1, r2, r3, r4, r5, r6] := by
  obtain rfl | ⟨r0, r1, r2, r3, r4, r5, r6, q, rfl, -⟩ := blocks_cases (q := r) (by rw [hr])
  · cases hr
  · obtain rfl : q = [] := by simpa using hr
    exact ⟨r0, r1, r2, r3, r4, r5, r6, rfl⟩

/-- The syndrome is linear (R132): each of its bits is an XOR of received bits. -/
theorem syndrome_zipWith_xor {a b : Bits} (ha : a.length = 7) (hb : b.length = 7) :
    syndrome (List.zipWith xor a b) = List.zipWith xor (syndrome a) (syndrome b) := by
  obtain ⟨a0, a1, a2, a3, a4, a5, a6, rfl⟩ := exists_of_length_seven ha
  obtain ⟨b0, b1, b2, b3, b4, b5, b6, rfl⟩ := exists_of_length_seven hb
  simp only [List.zipWith_cons_cons, List.zipWith_nil_left, syndrome_seven, Bool.xor_assoc, Bool.xor_left_comm]

theorem syndrome_encodeBlock {m : Bits} (hm : m.length = 4) : syndrome (encodeBlock m) = zeros 3 := by
  obtain ⟨m0, m1, m2, m3, rfl⟩ := List.length_eq_four.mp hm
  rw [encodeBlock_four, syndrome_seven]
  revert m0 m1 m2 m3
  decide

/-- The syndrome sees the errors only (R132). -/
theorem syndrome_encodeBlock_xor {m e : Bits} (hm : m.length = 4) (he : e.length = 7) :
    syndrome (List.zipWith xor (encodeBlock m) e) = syndrome e := by
  rw [syndrome_zipWith_xor (length_encodeBlock m) he, syndrome_encodeBlock hm, List.zipWith_comm_of_comm Bool.xor_comm,
    zipWith_xor_zeros (length_syndrome e)]

/-- Settles O47: the equations of R132, the linearity they give, and the seven rows of HT. -/
theorem syndromeBitsAndLinearity : Obligations.SyndromeBitsAndLinearity :=
  ⟨syndrome_seven, fun _ _ => syndrome_zipWith_xor, fun _ => syndrome_encodeBlock, fun _ _ => syndrome_encodeBlock_xor,
    by decide⟩

/-! ## The position a syndrome names -/

theorem errorPosition_eq_some {syn : Bits} {i : Nat} (h : errorPosition syn = some i) : i < 7 ∧ htRow i = syn :=
  ⟨List.mem_range.mp (List.mem_of_find?_eq_some h), by simpa using List.find?_some h⟩

theorem errorPosition_zeros : errorPosition (zeros 3) = none := by decide

theorem errorPosition_eq_none_iff {syn : Bits} (hlen : syn.length = 3) : errorPosition syn = none ↔ syn = zeros 3 :=
  ⟨fun h => of_not_not fun h0 => errorPosition_ne_none hlen h0 h, fun h => h ▸ errorPosition_zeros⟩

/-- No two rows of HT are equal (R114). -/
theorem htRow_injOn : ∀ i < 7, ∀ j < 7, htRow i = htRow j → i = j := by decide

theorem existsUnique_htRow {syn : Bits} (hlen : syn.length = 3) (h0 : syn ≠ zeros 3) :
    ∃ i, i < 7 ∧ htRow i = syn ∧ ∀ j, j < 7 → htRow j = syn → j = i := by
  obtain ⟨i, hpos⟩ := Option.ne_none_iff_exists'.mp (errorPosition_ne_none hlen h0)
  obtain ⟨hi, hrow⟩ := errorPosition_eq_some hpos
  exact ⟨i, hi, hrow, fun j hj hj' => htRow_injOn j hj i hi (hj'.trans hrow.symm)⟩

/-- Settles O19: the scan of HT finds a row for every non-zero syndrome, so neither a command nor an undecodable word
answers `InvariantViolation`. -/
theorem invariantViolationIsUnreachable : Obligations.InvariantViolationIsUnreachable := by
  refine ⟨fun _ => existsUnique_htRow, decodeBlock_ne_none, fun s t w rest r hin h hr => ?_⟩
  cases hd : decode w with
  | ok i => exact exec_status_ne_invariantViolation (step_of_decode hin hd ▸ h) hr
  | error e =>
    rw [step_of_undecodable hin hd] at h
    cases h
    obtain ⟨_, ht⟩ | ⟨_, ht⟩ := illegalWord_eq w (s.accept rest)
    all_goals
      rw [ht] at hr
      cases hr
      simp

/-! ## Decoding a block -/

/-- The decoder flips the bit the syndrome names, if any, and keeps four bits (R131). -/
theorem decodeBlock_eq_flipAt (r : Bits) :
    decodeBlock r = some ((flipAt r (errorPosition (syndrome r)).toList).take 4) := by
  unfold decodeBlock
  split
  · next h0 => rw [h0, errorPosition_zeros, Option.toList_none, flipAt_nil]
  · next h0 =>
    obtain ⟨i, hpos⟩ := Option.ne_none_iff_exists'.mp (errorPosition_ne_none (length_syndrome r) h0)
    rw [hpos, Option.toList_some]

/-- Which of the message bits a syndrome names (R114). -/
theorem contains_errorPosition (x y z : Bit) :
    (errorPosition [x, y, z]).toList.contains 0 = (x && y && z) ∧
    (errorPosition [x, y, z]).toList.contains 1 = (!x && y && z) ∧
    (errorPosition [x, y, z]).toList.contains 2 = (x && !y && z) ∧
    (errorPosition [x, y, z]).toList.contains 3 = (x && y && !z) := by
  revert x y z
  decide

/-- DECB past its length check (R137). -/
theorem exec_decb_of_length {s : State} {sa : BufId} {m : Bits} (sd : BufId) (hrun : s.halted = false)
    (hlen : (s.buf sa).length = 7) (hm : decodeBlock (s.buf sa) = some m) :
    exec (.decb sd sa) s = .next (respond .ok 4 (s.setBuf sd m)) := by
  rw [exec_decb, execDecb, if_neg (not_not.mpr hlen), hm]
  exact perform_ok (.decb sd sa) s _ 4 hrun

/-- Settles O33: the flip of the decoded block, bit by bit. -/
theorem decbCompletesOnSevenBits : Obligations.DecbCompletesOnSevenBits := by
  intro sd sa r0 r1 r2 r3 r4 r5 r6 s hrun hbuf x y z
  refine exec_decb_of_length sd hrun (congrArg List.length hbuf) ?_
  obtain ⟨h0, h1, h2, h3⟩ := contains_errorPosition x y z
  rw [hbuf, decodeBlock_eq_flipAt, syndrome_seven, ← h0, ← h1, ← h2, ← h3]
  rfl

/-- Decoding a codeword with errors is decoding the errors and adding the message (R134). -/
theorem decodeBlock_encodeBlock_xor {m e d : Bits} (hm : m.length = 4) (he : e.length = 7)
    (hd : decodeBlock e = some d) :
    decodeBlock (List.zipWith xor (encodeBlock m) e) = some (List.zipWith xor m d) := by
  have htake : (encodeBlock m).take 4 = m := by
    obtain ⟨m0, m1, m2, m3, rfl⟩ := List.length_eq_four.mp hm
    rw [encodeBlock_four]
    rfl
  rw [decodeBlock_eq_flipAt] at hd
  rw [decodeBlock_eq_flipAt, syndrome_encodeBlock_xor hm he, flipAt_zipWith_xor, List.take_zipWith, htake,
    Option.some.inj hd]

/-- The word the syndrome adds: nothing, or the error at the row of HT it equals (R131). -/
theorem exists_correction {r : Bits} (hr : r.length = 7) :
    ∃ u : Bits, ((syndrome r = zeros 3 ∧ u = zeros 7) ∨ (∃ i, i < 7 ∧ syndrome r = htRow i ∧ u = flipAt (zeros 7) [i])) ∧
      decodeBlock r = some ((List.zipWith xor r u).take 4) := by
  rw [decodeBlock_eq_flipAt, flipAt_eq_zipWith_xor _ hr]
  refine ⟨_, ?_, rfl⟩
  cases hpos : errorPosition (syndrome r) with
  | none => exact .inl ⟨(errorPosition_eq_none_iff (length_syndrome r)).mp hpos, flipAt_nil _⟩
  | some i =>
    obtain ⟨hi, hrow⟩ := errorPosition_eq_some hpos
    exact .inr ⟨i, hi, hrow.symm, rfl⟩

/-- A single error on the zero word is corrected. -/
theorem decodeBlock_single_error : ∀ p < 7, decodeBlock (flipAt (zeros 7) [p]) = some (zeros 4) := by decide

/-- Two errors on the zero word decode to a word of 1 to 3 ones. -/
theorem decodeBlock_double_error : ∀ q < 7, ∀ p < q, ∃ d, decodeBlock (flipAt (zeros 7) [p, q]) = some d ∧
    d.length = 4 ∧ 1 ≤ d.count true ∧ d.count true ≤ 3 := by
  have hcount : ∀ q < 7, ∀ p < q,
      ((decodeBlock (flipAt (zeros 7) [p, q])).map (List.count true)).getD 0 ∈ [1, 2, 3] := by decide
  intro q hq p hp
  obtain ⟨d, hd⟩ := Option.ne_none_iff_exists'.mp (decodeBlock_ne_none (flipAt (zeros 7) [p, q]))
  have hmem := hcount q hq p hp
  rw [hd] at hmem
  simp only [Option.map_some, Option.getD_some, List.mem_cons, List.not_mem_nil, or_false] at hmem
  exact ⟨d, hd, length_decodeBlock (by simp) hd, by omega, by omega⟩

/-- Settles O48: each clause is about the errors alone, decoded and added to the message. -/
theorem decodeBlockGuaranteeAndLimit : Obligations.DecodeBlockGuaranteeAndLimit := by
  intro m hm
  have hflip (F : List Nat) := flipAt_eq_zipWith_xor F (length_encodeBlock m)
  refine ⟨decodeBlock_encodeBlock hm, fun p hp => ?_, fun e he => ?_, fun p q hpq hq => ?_, fun m' hm' => ?_⟩
  · rw [hflip, decodeBlock_encodeBlock_xor hm (by simp) (decodeBlock_single_error p hp), zipWith_xor_zeros hm]
  · rw [← syndrome_encodeBlock_xor hm he]
    exact exists_correction (by simp [he])
  · obtain ⟨d, hd, hlen, hmin, hmax⟩ := decodeBlock_double_error q hq p hpq
    have hdist := bitDist_zipWith_xor (hm.trans hlen.symm)
    exact ⟨List.zipWith xor m d, hflip _ ▸ decodeBlock_encodeBlock_xor hm (by simp) hd, by simp [hm, hlen],
      hdist ▸ hmin, hdist ▸ hmax⟩
  · exact decodeBlock_encodeBlock_xor hm (length_encodeBlock m') (decodeBlock_encodeBlock hm')

/-! ## Decoding a stream -/

/-- Block `j` of the decoded stream is the decoded block `j` (R138). -/
theorem slice_decodeStream {q d : Bits} {j : Nat} (hq : q.length % 7 = 0) (hd : decodeStream q = some d)
    (hj : 7 * j < q.length) : decodeBlock (slice q (7 * j) 7) = some (slice d (4 * j) 4) := by
  revert d j
  refine blocks_induction (P := fun q => ∀ {d j}, decodeStream q = some d → 7 * j < q.length →
    decodeBlock (slice q (7 * j) 7) = some (slice d (4 * j) 4)) ?_ ?_ q hq
  · exact fun _ hj => absurd hj (Nat.not_lt_zero _)
  · intro r0 r1 r2 r3 r4 r5 r6 q _ ih d j hd hj
    rw [decodeStream_cons] at hd
    simp only [Option.bind_eq_some_iff, Option.map_eq_some_iff] at hd
    obtain ⟨m, hm, ms, hms, rfl⟩ := hd
    have hlen : m.length = 4 := length_decodeBlock rfl hm
    cases j with
    | zero => exact hm.trans (congrArg some (slice_append_zero ms hlen).symm)
    | succ j =>
      have hcode := slice_append_add (p := [r0, r1, r2, r3, r4, r5, r6]) q (7 * j) 7 rfl
      have hmsg := slice_append_add ms (4 * j) 4 hlen
      simp only [List.length_cons] at hj
      rw [Nat.mul_succ, Nat.add_comm, Nat.mul_succ, Nat.add_comm (4 * j), hmsg, ← ih hms (by omega)]
      exact congrArg decodeBlock hcode

/-- DEC past its length check (R139). -/
theorem exec_dec_of_length {s : State} {sa : BufId} {q : Bits} (sd : BufId) (hrun : s.halted = false)
    (hlen : (s.buf sa).length % 7 = 0) (hq : decodeStream (s.buf sa) = some q) :
    exec (.dec sd sa) s = .next (respond .ok (BitVec.ofNat 32 q.length) (s.setBuf sd q)) := by
  rw [exec_dec, execDec, if_neg (not_not.mpr hlen), hq, length_decodeStream hlen hq]
  exact perform_ok (.dec sd sa) s _ _ hrun

/-- Settles O34: the stream decodes, and its blocks one by one. -/
theorem decCompletesBlockByBlock : Obligations.DecCompletesBlockByBlock := by
  intro sd sa s hrun hlen
  obtain ⟨q, hq⟩ := Option.ne_none_iff_exists'.mp (decodeStream_ne_none (s.buf sa))
  exact ⟨q, exec_dec_of_length sd hrun hlen hq, length_decodeStream hlen hq, fun j => slice_decodeStream hlen hq⟩

end Sys2Proof.Machine
end

section
/-! Padding and framing (44_padding_framing.md R150 to R154): padding reaches the least multiple; the two paddings of the
pipeline and the lengths they fix; PAD and TRUNC. -/

namespace Sys2Proof.Machine

/-! ## Padding to a multiple -/

/-- Two multiples of `n` are at least `n` apart and the pad count is less than `n`, so none is passed over (R150). -/
theorem add_padCount_le_of_le {len n l : Nat} (hn : 1 ≤ n) (hle : len ≤ l) (hl : l % n = 0) :
    len + padCount len n ≤ l := by
  by_contra hlt
  have hdvd : n ∣ len + padCount len n - l :=
    Nat.dvd_sub (Nat.dvd_of_mod_eq_zero (add_padCount_mod len hn)) (Nat.dvd_of_mod_eq_zero hl)
  have hgap := Nat.le_of_dvd (by omega) hdvd
  have hcount := padCount_lt len hn
  omega

theorem padTo_eq_self_iff {n : Nat} (q : Bits) (hn : 1 ≤ n) : padTo q n = q ↔ q.length % n = 0 := by
  refine ⟨fun h => ?_, padTo_eq_self⟩
  have hlen := add_padCount_mod q.length hn
  rwa [← length_padTo, h] at hlen

/-- Settles O50: the padded length is a multiple less than `n` above the old length, hence the least one. -/
theorem padReachesTheLeastMultiple : Obligations.PadReachesTheLeastMultiple := by
  intro q n hn
  rw [length_padTo]
  exact ⟨rfl, padCount_lt _ hn, rfl, add_padCount_mod _ hn, fun l => add_padCount_le_of_le hn, padTo_eq_self_iff q hn⟩

/-! ## The two paddings of the pipeline -/

/-- Padding whole 4-bit blocks to 28 adds whole 4-bit blocks, fewer than seven (R151). -/
theorem padCount_twentyEight_mem {len : Nat} (h4 : len % 4 = 0) : padCount len 28 ∈ [0, 4, 8, 12, 16, 20, 24] := by
  have h28 := add_padCount_mod len (show 1 ≤ 28 by decide)
  have hlt := padCount_lt len (show 1 ≤ 28 by decide)
  simp only [List.mem_cons, List.not_mem_nil, or_false]
  omega

/-- Flips do not change the length a stream of whole 7-bit blocks decodes to (R138). -/
theorem exists_decodeStream_flipAt {q : Bits} (F : List Nat) (hq : q.length % 7 = 0) :
    ∃ D, decodeStream (flipAt q F) = some D ∧ D.length = 4 * q.length / 7 := by
  obtain ⟨D, hD⟩ := Option.ne_none_iff_exists'.mp (decodeStream_ne_none (flipAt q F))
  have hlen := length_decodeStream (by rwa [length_flipAt]) hD
  exact ⟨D, hD, by rwa [length_flipAt] at hlen⟩

/-- Settles O51: the encoded length is a whole number of 49-bit frames, which decode to 28 bits each. -/
theorem twoStagePaddingLengths : Obligations.TwoStagePaddingLengths := by
  rintro q F L4 L28 rfl rfl
  have hp4 := padCount_lt q.length (show 1 ≤ 4 by decide)
  have h4 := add_padCount_mod q.length (show 1 ≤ 4 by decide)
  have h28 := add_padCount_mod (q.length + padCount q.length 4) (show 1 ≤ 28 by decide)
  have hlen := length_encodeStream_padTo q
  have h49 := runLength_mod q.length
  obtain ⟨D, hD, hDlen⟩ := exists_decodeStream_flipAt F (q := encodeStream (padTo q 4)) (by omega)
  rw [hlen, runLength, encodedLength] at hDlen
  exact ⟨Nat.le_of_lt_succ hp4, padCount_twentyEight_mem h4, hlen, h49, D, hD, by omega, h28⟩

/-! ## PAD and TRUNC -/

/-- PAD past its checks (R152). -/
theorem exec_pad_of_fits {s : State} {sa : BufId} {multiple : Nat} (sd : BufId) (hrun : s.halted = false)
    (hm : 1 ≤ multiple) (hfit : (s.buf sa).length + padCount (s.buf sa).length multiple ≤ s.cap) :
    exec (.pad sd sa multiple) s =
      .next (respond .ok (BitVec.ofNat 32 (padCount (s.buf sa).length multiple))
        (s.setBuf sd (padTo (s.buf sa) multiple))) := by
  rw [exec_pad, execPad]
  dsimp only
  rw [if_neg (Nat.one_le_iff_ne_zero.mp hm), if_neg (Nat.not_lt.mpr hfit), perform_ok _ _ _ _ hrun]

/-- Settles O35: the count of the statement is the pad count. -/
theorem padCompletesWithinCapacity : Obligations.PadCompletesWithinCapacity := by
  rintro sd sa multiple c s hrun hm rfl hfit
  exact exec_pad_of_fits sd hrun hm hfit

/-- Settles O36: TRUNC within the stream's length passes its one check (R154). -/
theorem truncCompletesInsideTheStream : Obligations.TruncCompletesInsideTheStream := by
  intro sd sa n s hrun hn
  rw [exec_trunc, execTrunc, if_neg (Nat.not_lt.mpr hn), perform_ok _ _ _ _ hrun]

end Sys2Proof.Machine
end

section
/-! The noise injector (45_noise_injector.md R160 to R166). A flip is read bit by bit; the draw is one run of the loop of
R165 over the answers of both random sources, so what the loop keeps is what the draw keeps. -/

namespace Sys2Proof.Machine

/-! ## Flipping at a set -/

/-- A flip inverts the bits at the indices of the set and no others (R160). -/
theorem getElem?_flipAt_eq_ite (q : Bits) (F : List Nat) (j : Nat) :
    (flipAt q F)[j]? = (q[j]?).map fun b => if j ∈ F then !b else b := by
  rw [getElem?_flipAt]
  congr 1
  funext b
  by_cases hj : j ∈ F <;> simp [hj]

theorem flipAt_flipAt_self (q : Bits) (F : List Nat) : flipAt (flipAt q F) F = q := by
  refine List.ext_getElem? fun j => ?_
  simp [getElem?_flipAt, Function.comp_def]

/-- A flip at an index and then at a set without it is one flip. -/
theorem flipAt_flipAt_of_not_mem {i : Nat} {F : List Nat} (q : Bits) (hi : i ∉ F) :
    flipAt (flipAt q [i]) F = flipAt q (i :: F) := by
  refine List.ext_getElem? fun j => ?_
  simp only [getElem?_flipAt_eq_ite, Option.map_map]
  congr 1
  funext b
  by_cases hj : j = i
  · simp [hj, hi]
  · simp [hj]

theorem foldl_flipAt_eq_flipAt {F : List Nat} (q : Bits) (hF : F.Nodup) :
    F.foldl (fun r i => flipAt r [i]) q = flipAt q F := by
  induction F generalizing q with
  | nil => exact (flipAt_nil q).symm
  | cons i F ih =>
    obtain ⟨hi, hF⟩ := List.nodup_cons.mp hF
    rw [List.foldl_cons, ih _ hF, flipAt_flipAt_of_not_mem q hi]

/-- Settles O55: each part is an equation of flips. -/
theorem flipsComposeToOneNoise : Obligations.FlipsComposeToOneNoise :=
  ⟨fun q i => flipAt_flipAt_self q [i], fun q _ => foldl_flipAt_eq_flipAt q⟩

/-! ## How many positions differ -/

/-- The positions where a flip differs from its source are those of the stream that the set holds. -/
theorem bitDist_flipFrom (F : List Nat) (i : Nat) (q : Bits) :
    bitDist q (flipFrom F i q) = ((List.range' i q.length).filter (· ∈ F)).length := by
  induction q generalizing i with
  | nil => rfl
  | cons b q ih =>
    rw [flipFrom, bitDist_cons, ih, List.length_cons, List.range'_succ, List.filter_cons]
    by_cases hi : i ∈ F <;> simp [hi, Nat.add_comm]

/-- The positions of a stream that an admissible set holds are the set. -/
theorem filter_range_perm_of_flipSet {bound k : Nat} {F : List Nat} (hF : FlipSet bound k F) :
    ((List.range bound).filter (· ∈ F)).Perm F := by
  obtain ⟨hnodup, -, hlt⟩ := hF
  refine (List.perm_ext_iff_of_nodup (List.nodup_range.filter _) hnodup).mpr fun x => ?_
  simpa using hlt x

theorem bitDist_flipAt {q : Bits} {k : Nat} {F : List Nat} (hF : FlipSet q.length k F) : bitDist q (flipAt q F) = k := by
  rw [flipAt, bitDist_flipFrom, ← List.range_eq_range', (filter_range_perm_of_flipSet hF).length_eq, hF.2.1]

/-- An admissible set of as many indices as the stream has bits holds every index. -/
theorem mem_of_flipSet_full {bound : Nat} {F : List Nat} (hF : FlipSet bound bound F) {j : Nat} (hj : j < bound) :
    j ∈ F := by
  have hlen := (filter_range_perm_of_flipSet hF).length_eq
  rw [hF.2.1] at hlen
  have hall := List.length_filter_eq_length_iff.mp (hlen.trans List.length_range.symm)
  simpa using hall j (List.mem_range.mpr hj)

theorem flipAt_full {q : Bits} {F : List Nat} (hF : FlipSet q.length q.length F) : flipAt q F = q.map not := by
  refine List.ext_getElem (by simp) fun j hj _ => ?_
  rw [length_flipAt] at hj
  have hbit := getElem?_flipAt_eq_ite q F j
  simpa [hj, mem_of_flipSet_full hF hj] using hbit

/-- Settles O53, by counting the positions the set holds. -/
theorem noiseFlipsExactlyKPositions : Obligations.NoiseFlipsExactlyKPositions := by
  refine fun q k F hF => ⟨bitDist_flipAt hF, length_flipAt q F, fun hk => ?_, fun hk => ?_⟩
  · rw [List.eq_nil_of_length_eq_zero (hF.2.1.trans hk), flipAt_nil]
  · exact flipAt_full (hk ▸ hF)

/-! ## The draw is one run of the loop -/

/-- Every answer one command can be given, in order: those of the injected source, then those of the free source. -/
def State.answers (s : State) (bound : Nat) : List Nat := s.rndIn.map BitVec.toNat ++ s.freeAnswers bound

theorem selectLoop_of_full {k : Nat} {X : List Nat} (bound : Nat) (vs : List Nat) (hX : ¬rndReq k X) :
    selectLoop bound k X vs = (X, vs) := by
  cases vs with
  | nil => rfl
  | cons v vs => exact if_neg hX

theorem loopExchanges_of_full {k : Nat} {X : List Nat} (bound : Nat) (vs : List Nat) (hX : ¬rndReq k X) :
    loopExchanges bound k X vs = [] := by
  cases vs with
  | nil => rfl
  | cons v vs => exact if_neg hX

/-- A loop over more answers goes on where the loop over the first ones still asks. -/
theorem selectLoop_append (bound k : Nat) (X vs ws : List Nat) :
    (selectLoop bound k X (vs ++ ws)).1 =
      if rndReq k (selectLoop bound k X vs).1 then (selectLoop bound k (selectLoop bound k X vs).1 ws).1
      else (selectLoop bound k X vs).1 := by
  induction vs generalizing X with
  | nil =>
    rw [List.nil_append, selectLoop]
    split
    · rfl
    · next hr => rw [selectLoop_of_full bound ws hr]
  | cons v vs ih =>
    simp only [List.cons_append, selectLoop]
    split
    · exact ih _
    · rfl

theorem loopExchanges_append (bound k : Nat) (X vs ws : List Nat) :
    loopExchanges bound k X (vs ++ ws) = loopExchanges bound k X vs ++
      if rndReq k (selectLoop bound k X vs).1 then loopExchanges bound k (selectLoop bound k X vs).1 ws else [] := by
  induction vs generalizing X with
  | nil =>
    rw [List.nil_append, selectLoop, loopExchanges, List.nil_append]
    split
    · rfl
    · next hr => rw [loopExchanges_of_full bound ws hr]
  | cons v vs ih =>
    simp only [List.cons_append, selectLoop, loopExchanges]
    split
    · rw [ih, List.cons_append]
    · rfl

theorem drawSet_eq_selectLoop (s : State) (bound k : Nat) :
    s.drawSet bound k = (selectLoop bound k [] (s.answers bound)).1 :=
  (selectLoop_append bound k [] _ _).symm

theorem drawExchanges_eq_loopExchanges (s : State) (bound k : Nat) :
    s.drawExchanges bound k = loopExchanges bound k [] (s.answers bound) :=
  (loopExchanges_append bound k [] _ _).symm

/-- The free source offers every index in range. -/
theorem mem_answers_of_lt (s : State) {bound v : Nat} (hv : v < bound) : v ∈ s.answers bound :=
  List.mem_append_right _ (List.mem_append_right _ (List.mem_range.mpr hv))

/-- Every answer is a 16-bit number (30_encoding.md R74). -/
theorem lt_of_mem_answers {s : State} {bound v : Nat} (hbound : bound ≤ 65535) (hv : v ∈ s.answers bound) :
    v < 65536 := by
  simp only [State.answers, State.freeAnswers, List.mem_append, List.mem_map, List.mem_range] at hv
  obtain ⟨x, -, rfl⟩ | ⟨x, -, rfl⟩ | hv := hv
  · exact x.isLt
  · exact x.isLt
  · omega

/-- The draw is admissible whatever the sources answer (R163). -/
theorem flipSet_drawSet (s : State) {bound k : Nat} (hk : k ≤ bound) : FlipSet bound k (s.drawSet bound k) := by
  rw [drawSet_eq_selectLoop]
  obtain ⟨hnodup, hlt, hle⟩ := selectLoop_keeps (vs := s.answers bound) List.nodup_nil
    (fun _ hx => absurd hx List.not_mem_nil) (Nat.zero_le k)
  exact ⟨hnodup, Nat.le_antisymm hle (selectLoop_completes hk fun _ hv => .inr (mem_answers_of_lt s hv)), hlt⟩

/-- A source that answers with the indices of an admissible set makes it the draw. -/
theorem drawSet_of_answers (s : State) {bound k : Nat} {F : List Nat} (hbound : bound ≤ 65535) (hF : FlipSet bound k F) :
    State.drawSet { s with rndIn := F.map (BitVec.ofNat 16) } bound k = F := by
  obtain ⟨hnodup, rfl, hlt⟩ := hF
  have hidx : (F.map (BitVec.ofNat 16)).map BitVec.toNat = F := by
    rw [List.map_map]
    refine (List.map_congr_left fun x hx => ?_).trans (List.map_id F)
    have := hlt x hx
    simp only [Function.comp_apply, BitVec.toNat_ofNat, id_eq]
    omega
  have hloop := selectLoop_accepts (X := []) hnodup hlt
  rw [List.length_nil, Nat.zero_add, List.nil_append] at hloop
  simp [State.drawSet, State.injectedDraw, hidx, hloop, rndReq]

/-! ## The exchanges on the port -/

/-- The loop of R165 as an observer of the port replays it. -/
def acceptExchange (bound : Nat) (X : List Nat) (e : RndExchange) : List Nat := acceptIndex bound X e.idx.toNat

theorem acceptExchange_of_lt {v : Nat} (bound : Nat) (X : List Nat) (b : BitVec 16) (hv : v < 65536) :
    acceptExchange bound X ⟨b, BitVec.ofNat 16 v⟩ = acceptIndex bound X v := by
  rw [acceptExchange, BitVec.toNat_ofNat, Nat.mod_eq_of_lt hv]

theorem bound_of_mem_loopExchanges {bound k : Nat} {X vs : List Nat} {e : RndExchange}
    (he : e ∈ loopExchanges bound k X vs) : e.bound = rndBound bound := by
  induction vs generalizing X with
  | nil => cases he
  | cons v vs ih =>
    rw [loopExchanges] at he
    split at he
    · obtain rfl | he := List.mem_cons.mp he
      · rfl
      · exact ih he
    · cases he

section Replay

variable {bound k : Nat} {X vs : List Nat}

/-- Replaying the exchanges gives what the loop selects. -/
theorem foldl_loopExchanges (hvs : ∀ v ∈ vs, v < 65536) :
    (loopExchanges bound k X vs).foldl (acceptExchange bound) X = (selectLoop bound k X vs).1 := by
  induction vs generalizing X with
  | nil => rfl
  | cons v vs ih =>
    obtain ⟨hv, hvs⟩ := List.forall_mem_cons.mp hvs
    rw [loopExchanges, selectLoop]
    split
    · rw [List.foldl_cons, acceptExchange_of_lt bound X _ hv, ih hvs]
    · rfl

/-- Before each exchange fewer than `k` indices are held. -/
theorem length_foldl_take_loopExchanges_lt (hvs : ∀ v ∈ vs, v < 65536) {n : Nat}
    (hn : n < (loopExchanges bound k X vs).length) :
    (((loopExchanges bound k X vs).take n).foldl (acceptExchange bound) X).length < k := by
  induction vs generalizing X n with
  | nil => cases hn
  | cons v vs ih =>
    obtain ⟨hv, hvs⟩ := List.forall_mem_cons.mp hvs
    rw [loopExchanges] at hn ⊢
    split at hn
    · next hr =>
      rw [if_pos hr]
      cases n with
      | zero => exact rndReq_iff.mp hr
      | succ n =>
        rw [List.take_succ_cons, List.foldl_cons, acceptExchange_of_lt bound X _ hv]
        exact ih hvs (Nat.lt_of_succ_lt_succ hn)
    · cases hn

end Replay

/-- Settles O54: the draw and its exchanges are one run of the loop, and the statement's `loop` is its replay. -/
theorem drawIsAnyAdmissibleFlipSet : Obligations.DrawIsAnyAdmissibleFlipSet := by
  refine ⟨fun s _ _ => flipSet_drawSet s, fun s _ _ F hbound hF => ⟨F.map (BitVec.ofNat 16), drawSet_of_answers s hbound hF⟩,
    ?_⟩
  rintro s bound k _ hbound - rfl
  have hvs : ∀ v ∈ s.answers bound, v < 65536 := fun _ => lt_of_mem_answers hbound
  refine ⟨fun e he => ?_, ?_, fun n hn => ?_, fun hk => hk ▸ drawExchanges_zero s bound⟩
  · rw [drawExchanges_eq_loopExchanges] at he
    rw [bound_of_mem_loopExchanges he, rndBound, BitVec.toNat_ofNat, Nat.mod_eq_of_lt (Nat.lt_succ_of_le hbound)]
  · rw [drawExchanges_eq_loopExchanges, drawSet_eq_selectLoop]
    exact foldl_loopExchanges hvs
  · rw [drawExchanges_eq_loopExchanges] at hn ⊢
    exact length_foldl_take_loopExchanges_lt hvs hn

/-! ## NOISE and FLIP -/

/-- NOISE past its check (R164). -/
theorem exec_noise_of_le {s : State} {sa : BufId} {k : Nat} (sd : BufId) (hrun : s.halted = false)
    (hk : k ≤ (s.buf sa).length) :
    exec (.noise sd sa k) s =
      .next (respond .ok (BitVec.ofNat 32 (s.buf sa).length)
        ((s.afterDraw (s.buf sa).length k).setBuf sd (flipAt (s.buf sa) (s.drawSet (s.buf sa).length k)))) := by
  rw [exec_noise, execNoise]
  dsimp only
  rw [if_neg (Nat.not_lt.mpr hk), perform_ok _ _ _ _ hrun]

/-- FLIP past its check (R166). -/
theorem exec_flip_of_lt {s : State} {sa : BufId} {idx : Nat} (sd : BufId) (hrun : s.halted = false)
    (hidx : idx < (s.buf sa).length) :
    exec (.flip sd sa idx) s =
      .next (respond .ok (BitVec.ofNat 32 (s.buf sa).length) (s.setBuf sd (flipAt (s.buf sa) [idx]))) := by
  rw [exec_flip, execFlip]
  dsimp only
  rw [if_neg (Nat.not_le.mpr hidx), perform_ok _ _ _ _ hrun]

/-- Settles O37: the result is the source flipped at the draw. -/
theorem noiseCompletesOnAnAdmissibleSet : Obligations.NoiseCompletesOnAnAdmissibleSet := by
  rintro sd sa k _ s hrun rfl hk
  exact ⟨flipSet_drawSet s hk, _, exec_noise_of_le sd hrun hk, getElem?_flipAt_eq_ite _ _⟩

/-- Settles O38: the result is the source flipped at the one index. -/
theorem flipCompletesInsideTheStream : Obligations.FlipCompletesInsideTheStream := by
  intro sd sa idx s hrun hidx
  refine ⟨_, exec_flip_of_lt sd hrun hidx, fun j => ?_⟩
  simpa using getElem?_flipAt_eq_ite (s.buf sa) [idx] j

end Sys2Proof.Machine
end

section
/-! The pipeline orchestrator (46_pipeline.md R175 to R181): RUN completes with its counts; a 7-bit block is recovered
exactly when it holds at most one flip; RUN is PAD, ENC, NOISE, DEC, TRUNC and CMP in one command. -/

namespace Sys2Proof.Machine

/-! ## RUN, TRUNC and CMP past their checks -/

/-- What a run reports is read off the decoded stream (R175, R176). -/
theorem runPipeline_of_decoded {q D : Bits} {F : List Nat} (k : Nat)
    (hD : decodeStream (flipAt (encodeStream (padTo q 4)) F) = some D) :
    runPipeline q k F = some ⟨D.take q.length, q.length, padCount q.length 4, k, bitDist q (D.take q.length),
      runLength q.length⟩ := by
  simp [runPipeline, hD, length_encodeStream_padTo]

/-- Whatever is flipped, the encoded message decodes, to a stream that holds all of the message's positions (R138,
R175). -/
theorem exists_decoded_message (q : Bits) (F : List Nat) :
    ∃ D, decodeStream (flipAt (encodeStream (padTo q 4)) F) = some D ∧ q.length ≤ D.length := by
  have hlen := length_encodeStream_padTo q
  have h49 := runLength_mod q.length
  obtain ⟨D, hD, hDlen⟩ := exists_decodeStream_flipAt F (q := encodeStream (padTo q 4)) (by omega)
  exact ⟨D, hD, by simpa only [hDlen, hlen] using le_decodedLength q.length⟩

theorem length_padTo_four_mod (q : Bits) : (padTo q 4).length % 4 = 0 := by
  rw [length_padTo]
  exact add_padCount_mod _ (by decide)

/-- RUN past its checks (R177). -/
theorem exec_run_of_fits {s : State} {sa : BufId} {k : Nat} {q D : Bits} (sd : BufId) (hrun : s.halted = false)
    (hq : s.buf sa = q) (hfit : runLength q.length ≤ s.cap) (hk : k ≤ runLength q.length)
    (hD : decodeStream (flipAt (encodeStream (padTo q 4)) (s.drawSet (runLength q.length) k)) = some D) :
    exec (.run sd sa k) s =
      .next (respond .ok (BitVec.ofNat 32 (bitDist q (D.take q.length)))
        (((s.afterDraw (runLength q.length) k).setBuf sd (D.take q.length)).setReport
          ⟨D.take q.length, q.length, padCount q.length 4, k, bitDist q (D.take q.length), runLength q.length⟩)) := by
  subst hq
  rw [exec_run, execRun]
  dsimp only
  rw [if_neg (Nat.not_lt.mpr hfit), if_neg (Nat.not_lt.mpr hk), runPipeline_of_decoded k hD, perform_ok _ _ _ _ hrun]

/-- CMP past its length check (R179). -/
theorem exec_cmp_of_length_eq {s : State} {sa sb : BufId} (hrun : s.halted = false)
    (hlen : (s.buf sa).length = (s.buf sb).length) :
    exec (.cmp sa sb) s = .next (respond .ok (BitVec.ofNat 32 (bitDist (s.buf sa) (s.buf sb))) s) := by
  rw [exec_cmp, execCmp, if_neg (not_not.mpr hlen), perform_ok _ _ _ _ hrun]

/-- Settles O39: the encoded message decodes whatever is drawn, and RUN past its checks reports what it decodes to. -/
theorem runCompletesWithItsCounts : Obligations.RunCompletesWithItsCounts := by
  rintro sd sa k el q s hrun rfl hel hfit hk
  rw [length_encodeStream_padTo] at hel
  subst hel
  obtain ⟨D, hD, hlen⟩ := exists_decoded_message (s.buf sa) (s.drawSet (runLength (s.buf sa).length) k)
  exact ⟨flipSet_drawSet s hk, D, _, hD, rfl, List.length_take_of_le hlen, exec_run_of_fits sd hrun rfl hfit hk hD⟩

/-! ## Flips in one block -/

/-- A sub-sequence of a flipped stream is flipped at the indices it had in the stream. -/
theorem slice_flipAt (q : Bits) (F : List Nat) (a cnt : Nat) :
    slice (flipAt q F) a cnt = flipFrom F a (slice q a cnt) := by
  refine List.ext_getElem? fun j => ?_
  simp only [slice, List.getElem?_take, List.getElem?_drop, getElem?_flipAt, getElem?_flipFrom]
  split <;> rfl

/-- The positions of block `j` that a set holds are as many as its flips in block `j`. -/
theorem length_filter_range'_eq_flipsInBlock {F : List Nat} (hF : F.Nodup) (j : Nat) :
    ((List.range' (7 * j) 7).filter (· ∈ F)).length = flipsInBlock F j := by
  have hrange : (List.range' (7 * j) 7).Nodup := List.nodup_range'
  refine ((List.perm_ext_iff_of_nodup (hrange.filter _) (hF.filter _)).mpr fun x => ?_).length_eq
  have hblock : 7 * j ≤ x ∧ x < 7 * j + 7 ↔ x / 7 = j := by omega
  simp only [List.mem_filter, List.mem_range'_1, decide_eq_true_eq, beq_iff_eq, hblock, and_comm]

/-- The error pattern of block `j` has as many ones as the set has flips in the block. -/
theorem bitDist_zeros_flipFrom {F : List Nat} (hF : F.Nodup) (j : Nat) :
    bitDist (zeros 7) (flipFrom F (7 * j) (zeros 7)) = flipsInBlock F j := by
  rw [bitDist_flipFrom, length_zeros, length_filter_range'_eq_flipsInBlock hF]

/-- An error pattern decodes to the zero message exactly when it has at most one 1: the code corrects one error and no
two (R134). -/
theorem decodeBlock_eq_zeros_iff {e : Bits} (he : e.length = 7) :
    decodeBlock e = some (zeros 4) ↔ bitDist (zeros 7) e ≤ 1 := by
  obtain ⟨e0, e1, e2, e3, e4, e5, e6, rfl⟩ := exists_of_length_seven he
  revert e0 e1 e2 e3 e4 e5 e6
  decide

theorem eq_zeros_of_count_true_eq_zero {d : Bits} (h : d.count true = 0) : d = zeros d.length :=
  List.eq_replicate_of_mem fun _ hb => Bool.eq_false_of_not_eq_true fun ht => List.count_eq_zero.mp h (ht ▸ hb)

/-- Adding a sequence changes nothing exactly when it has no ones. -/
theorem zipWith_xor_eq_self_iff {q d : Bits} {n : Nat} (hq : q.length = n) (hd : d.length = n) :
    List.zipWith xor q d = q ↔ d = zeros n := by
  refine ⟨fun h => ?_, fun h => h ▸ zipWith_xor_zeros hq⟩
  have hcount := bitDist_zipWith_xor (hq.trans hd.symm)
  rw [h, bitDist_self] at hcount
  exact hd ▸ eq_zeros_of_count_true_eq_zero hcount.symm

/-- A codeword in block `j` of a flipped stream decodes to its message exactly when the block has at most one flip
(R134, R181). -/
theorem decodeBlock_flipFrom_eq_iff {m : Bits} {F : List Nat} (hm : m.length = 4) (hF : F.Nodup) (j : Nat) :
    decodeBlock (flipFrom F (7 * j) (encodeBlock m)) = some m ↔ flipsInBlock F j ≤ 1 := by
  have he : (flipFrom F (7 * j) (zeros 7)).length = 7 := by simp
  obtain ⟨d, hd⟩ := Option.ne_none_iff_exists'.mp (decodeBlock_ne_none (flipFrom F (7 * j) (zeros 7)))
  have hsum : flipFrom F (7 * j) (encodeBlock m) =
      List.zipWith xor (encodeBlock m) (flipFrom F (7 * j) (zeros 7)) := by
    rw [← flipFrom_zipWith_xor, zipWith_xor_zeros (length_encodeBlock m)]
  rw [hsum, decodeBlock_encodeBlock_xor hm he hd, Option.some_inj,
    zipWith_xor_eq_self_iff hm (length_decodeBlock he hd), ← Option.some_inj, ← hd, decodeBlock_eq_zeros_iff he,
    bitDist_zeros_flipFrom hF]

/-- Block `j` of a message stream survives encoding, flipping and decoding exactly when it takes at most one flip
(R138, R181). -/
theorem slice_decoded_eq_iff {q D : Bits} {F : List Nat} {j : Nat} (hq : q.length % 4 = 0) (hF : F.Nodup)
    (hD : decodeStream (flipAt (encodeBlocks q) F) = some D) (hj : 4 * j < q.length) :
    slice D (4 * j) 4 = slice q (4 * j) 4 ↔ flipsInBlock F j ≤ 1 := by
  have hlen := length_encodeBlocks q hq
  have hcode := slice_encodeBlocks hq (j := j) (by omega)
  have hdec := slice_decodeStream (j := j) (by rw [length_flipAt]; omega) hD (by rw [length_flipAt]; omega)
  have hm : (slice q (4 * j) 4).length = 4 := by
    rw [slice, List.length_take, List.length_drop]
    omega
  rw [← Option.some_inj, ← hdec, slice_flipAt, hcode, decodeBlock_flipFrom_eq_iff hm hF]

/-! ## Streams and their blocks -/

theorem getElem?_slice_mod (q : Bits) (i : Nat) : (slice q (4 * (i / 4)) 4)[i % 4]? = q[i]? := by
  rw [slice, List.getElem?_take_of_lt (Nat.mod_lt i (by decide)), List.getElem?_drop, Nat.div_add_mod]

/-- Streams of one length that agree on every 4-bit block are equal. -/
theorem eq_of_forall_slice_eq {q r : Bits} (hlen : q.length = r.length)
    (h : ∀ j, 4 * j < r.length → slice q (4 * j) 4 = slice r (4 * j) 4) : q = r := by
  refine List.ext_getElem? fun i => ?_
  by_cases hi : i < r.length
  · rw [← getElem?_slice_mod q, h _ (by omega), getElem?_slice_mod]
  · rw [List.getElem?_eq_none (by omega), List.getElem?_eq_none (by omega)]

theorem slice_take {n a cnt : Nat} (q : Bits) (h : a + cnt ≤ n) : slice (q.take n) a cnt = slice q a cnt := by
  rw [slice, slice, List.drop_take, List.take_take, Nat.min_eq_left (by omega)]

theorem eq_of_bitDist_eq_zero {q r : Bits} (hlen : q.length = r.length) (h : bitDist q r = 0) : q = r :=
  eq_of_zipWith_xor_eq_zeros hlen (eq_zeros_of_count_true_eq_zero (bitDist_eq_count_zipWith_xor q r ▸ h))

/-! ## The message after RUN -/

/-- With at most one flip in every block the stream decodes to itself (R181). -/
theorem decoded_eq_of_flipsInBlock_le_one {q D : Bits} {F : List Nat} (hq : q.length % 4 = 0) (hF : F.Nodup)
    (hD : decodeStream (flipAt (encodeBlocks q) F) = some D) (hflips : ∀ j, flipsInBlock F j ≤ 1) : D = q := by
  have hlen := length_encodeBlocks q hq
  have hDlen := length_decodeStream (by rw [length_flipAt]; omega) hD
  rw [length_flipAt] at hDlen
  exact eq_of_forall_slice_eq (by omega) fun j hj => (slice_decoded_eq_iff hq hF hD hj).mpr (hflips j)

/-- Two flips in a block of message bits leave another message (R181, R226). -/
theorem take_decoded_ne_of_two_le_flipsInBlock {q D : Bits} {F : List Nat} {n j : Nat} (hq : q.length % 4 = 0)
    (hF : F.Nodup) (hD : decodeStream (flipAt (encodeBlocks q) F) = some D) (hn : n ≤ q.length)
    (hj : 4 * j + 4 ≤ n) (hflips : 2 ≤ flipsInBlock F j) : D.take n ≠ q.take n := by
  intro heq
  have hblock := congrArg (slice · (4 * j) 4) heq
  simp only [slice_take _ hj] at hblock
  exact absurd ((slice_decoded_eq_iff hq hF hD (by omega)).mp hblock) (by omega)

theorem ofNat_ne_zero {w n : Nat} (h0 : n ≠ 0) (hn : n < 2 ^ w) : BitVec.ofNat w n ≠ 0#w := fun h =>
  h0 (by simpa [Nat.mod_eq_of_lt hn] using congrArg BitVec.toNat h)

/-- Settles O56: what RUN recovers is read off its 7-bit blocks, each right exactly when it takes at most one flip. -/
theorem runRecoversUpToOneFlipPerBlock : Obligations.RunRecoversUpToOneFlipPerBlock := by
  intro sd sa k el s hrun hcap hel hfit hk
  rw [length_encodeStream_padTo] at hel
  subst hel
  generalize hq : s.buf sa = q at *
  obtain ⟨hF, -, -⟩ := flipSet_drawSet s hk
  obtain ⟨D, hD, hlen⟩ := exists_decoded_message q (s.drawSet (runLength q.length) k)
  have hexec := exec_run_of_fits sd hrun hq hfit hk hD
  have h28 := length_padTo_mod_four (length_padTo_four_mod q)
  have hmsg : (padTo (padTo q 4) 28).take q.length = q := by simp [padTo]
  refine ⟨fun hflips => ?_, fun ⟨j, hj, hflips⟩ => ?_⟩
  · have hR : D.take q.length = q := by rw [decoded_eq_of_flipsInBlock_le_one h28 hF hD hflips, hmsg]
    rw [hR, bitDist_self] at hexec
    exact ⟨_, hexec, by simp, rfl, rfl⟩
  · have hR : D.take q.length ≠ q := by
      have hne := take_decoded_ne_of_two_le_flipsInBlock h28 hF hD (n := q.length) (by simp [Nat.add_assoc]) hj hflips
      rwa [hmsg] at hne
    have hdist : bitDist q (D.take q.length) ≠ 0 := fun h0 =>
      hR (eq_of_bitDist_eq_zero (List.length_take_of_le hlen).symm h0).symm
    have hle := bitDist_le_length q (D.take q.length)
    have hmsgLen := le_runLength q.length
    have hbound : bitDist q (D.take q.length) < 2 ^ 16 := by omega
    exact ⟨_, _, hexec, by simpa using hR, rfl, ofNat_ne_zero hdist (by omega), ofNat_ne_zero hdist hbound⟩

/-! ## RUN as a sequence of commands -/

/-- A command that leaves its result in the buffer the last one left its own in replaces that result and response. -/
theorem respond_setBuf_respond_setBuf (st st' : Status) (d d' : Word) (s : State) (b : BufId) (q r : Bits) :
    respond st' d' ((respond st d (s.setBuf b q)).setBuf b r) = respond st' d' (s.setBuf b r) := by
  cases b <;> rfl

theorem le_encodedLength (len : Nat) : len ≤ encodedLength len := by
  rw [encodedLength]
  omega

/-! The single commands in place: `b` holds `q`, the last answer was `OK`, and the block runs. -/

section InPlace

variable {s : State} (b : BufId) {q : Bits} (d : Word) (hrun : s.halted = false)
include hrun

theorem exec_enc_inPlace (hlen : q.length % 4 = 0) (hfit : encodedLength q.length ≤ s.cap) :
    exec (.enc b b) (respond .ok d (s.setBuf b q)) =
      .next (respond .ok (BitVec.ofNat 32 (encodedLength q.length)) (s.setBuf b (encodeStream q))) := by
  have h := exec_enc_of_fits (s := respond .ok d (s.setBuf b q)) (sa := b) b (by simpa) (by simpa) (by simpa)
  simpa only [buf_respond, buf_setBuf_same, respond_setBuf_respond_setBuf] using h

theorem exec_noise_inPlace {k : Nat} (hk : k ≤ q.length) :
    exec (.noise b b k) (respond .ok d (s.setBuf b q)) =
      .next (respond .ok (BitVec.ofNat 32 q.length)
        ((s.afterDraw q.length k).setBuf b (flipAt q (s.drawSet q.length k)))) := by
  have h := exec_noise_of_le (s := respond .ok d (s.setBuf b q)) (sa := b) b (by simpa) (by simpa)
  simpa only [buf_respond, buf_setBuf_same, drawSet_respond, drawSet_setBuf, afterDraw_respond, afterDraw_setBuf,
    respond_setBuf_respond_setBuf] using h

theorem exec_dec_inPlace {m : Bits} (hlen : q.length % 7 = 0) (hm : decodeStream q = some m) :
    exec (.dec b b) (respond .ok d (s.setBuf b q)) =
      .next (respond .ok (BitVec.ofNat 32 m.length) (s.setBuf b m)) := by
  have h := exec_dec_of_length (s := respond .ok d (s.setBuf b q)) (sa := b) (q := m) b (by simpa) (by simpa) (by simpa)
  rwa [respond_setBuf_respond_setBuf] at h

theorem exec_trunc_inPlace {n : Nat} (hn : n ≤ q.length) :
    exec (.trunc b b n) (respond .ok d (s.setBuf b q)) =
      .next (respond .ok (BitVec.ofNat 32 n) (s.setBuf b (q.take n))) := by
  have h := truncCompletesInsideTheStream b b n (respond .ok d (s.setBuf b q)) (by simpa) (by simpa)
  simpa only [buf_respond, buf_setBuf_same, respond_setBuf_respond_setBuf] using h

theorem exec_cmp_inPlace {sa : BufId} (hb : b ≠ sa) (hlen : (s.buf sa).length = q.length) :
    exec (.cmp sa b) (respond .ok d (s.setBuf b q)) =
      .next (respond .ok (BitVec.ofNat 32 (bitDist (s.buf sa) q)) (s.setBuf b q)) := by
  have hsa : (respond .ok d (s.setBuf b q)).buf sa = s.buf sa := by rw [buf_respond, buf_setBuf_ne _ _ _ _ hb.symm]
  have hsb : (respond .ok d (s.setBuf b q)).buf b = q := by rw [buf_respond, buf_setBuf_same]
  have h := exec_cmp_of_length_eq (s := respond .ok d (s.setBuf b q)) (sa := sa) (sb := b) (by simpa)
    (by rwa [hsa, hsb])
  rw [hsa, hsb] at h
  exact h

end InPlace

/-- Settles O57: each command works in place on the result of the one before, and NOISE draws what RUN draws. -/
theorem runEqualsTheSingleCommands : Obligations.RunEqualsTheSingleCommands := by
  intro sa b k s hrun hb hfit hk
  generalize hq : s.buf sa = q at *
  have hE := length_encodeStream_padTo q
  have h49 := runLength_mod q.length
  have hM := length_padTo_four_mod q
  have hencLen : encodedLength (padTo q 4).length ≤ s.cap := by rwa [← length_encodeStream _ hM]
  have hpad := exec_pad_of_fits (sa := sa) (multiple := 4) b hrun (by decide) (by
    rw [hq, ← length_padTo]
    exact (le_encodedLength _).trans hencLen)
  obtain ⟨D, hD, hlen⟩ := exists_decoded_message q (s.drawSet (encodeStream (padTo q 4)).length k)
  have hR : (D.take q.length).length = q.length := List.length_take_of_le hlen
  have hrun' : (s.afterDraw (encodeStream (padTo q 4)).length k).halted = false := hrun
  have hexec := exec_run_of_fits b hrun hq (hE ▸ hfit) (hE ▸ hk) (hE ▸ hD)
  have hcmp := exec_cmp_inPlace b (BitVec.ofNat 32 q.length) hrun' hb (q := D.take q.length)
    (by rw [buf_afterDraw, hq, hR])
  rw [hq] at hpad
  rw [buf_afterDraw, hq] at hcmp
  rw [← hE] at hexec
  refine ⟨_, _, _, _, _, _, _, hexec, ?_, ?_, hpad,
    exec_enc_inPlace b _ hrun hM hencLen, exec_noise_inPlace b _ hrun hk,
    exec_dec_inPlace b _ hrun' (by rw [length_flipAt]; omega) hD, exec_trunc_inPlace b _ hrun' hlen, hcmp, ?_, ?_⟩
  · simp
  · rw [buf_respond, buf_setReport, buf_setBuf_same, hR]
  · simp
  · simp [hrun]

end Sys2Proof.Machine
end

section
/-! Host access (47_host_access_commands.md R190 to R197), and CMP bit by bit (46_pipeline.md R179). What READ answers
is read off the packing of 20_memory.md R51, one bit of the field at a time. -/

namespace Sys2Proof.Machine

/-! ## CLR, MOV, PUSH, RDSR -/

/-- Settles O24: in a running block neither command has a check to pass. -/
theorem clrAndMovComplete : Obligations.ClrAndMovComplete :=
  fun sd sa _ hrun => ⟨exec_clr_of_running sd hrun, perform_ok (.mov sd sa) _ _ _ hrun⟩

/-- Settles O25: PUSH past its capacity check. -/
theorem pushCompletesWithinCapacity : Obligations.PushCompletesWithinCapacity :=
  fun _ _ _ hrun hfit => exec_push_of_fits hrun hfit

/-- Settles O28: RDSR has no check, and a field narrower than the word is extended with zeros. -/
theorem rdsrCompletesForEveryRegister : Obligations.RdsrCompletesForEveryRegister := by
  intro s
  simp only [exec_rdsr, execRdsr, State.readSr, Config.id, BitVec.ofNat_toNat, and_self]

/-! ## LEN and CMP -/

/-- The distance of two sequences of one length counts the indices where they differ. -/
theorem bitDist_eq_countP_range {q r : Bits} (hlen : q.length = r.length) :
    bitDist q r = (List.range q.length).countP fun j => q.getD j false != r.getD j false := by
  induction q generalizing r with
  | nil => simp
  | cons a q ih =>
    cases r with
    | nil => cases hlen
    | cons b r =>
      rw [bitDist_cons, ih (Nat.succ.inj hlen), List.length_cons, List.range_succ_eq_map, List.countP_cons,
        List.countP_map, Nat.add_comm]
      cases a <;> cases b <;> rfl

/-- Settles O26: the distance CMP answers is the count over indices. -/
theorem lenAndCmpComplete : Obligations.LenAndCmpComplete := by
  refine fun sa sb s hrun => ⟨perform_ok (.len sa) s s _ hrun, fun hlen => ?_⟩
  rw [exec_cmp_of_length_eq hrun hlen, bitDist_eq_countP_range hlen]

/-! ## The bits of a packed sequence -/

/-- Bit `j` of the value is the bit `j` places before the last: index 0 is the most significant (00_scope.md R7). -/
theorem testBit_bitsVal (q : Bits) (j : Nat) : (bitsVal q).testBit j = q.reverse.getD j false := by
  induction q with
  | nil => simp [bitsVal]
  | cons b q ih =>
    rw [bitsVal, Nat.mul_comm, Nat.testBit_two_pow_mul_add _ (bitsVal_lt q), ih, List.reverse_cons]
    rcases lt_or_ge j q.length with hlt | hge
    · rw [if_pos hlt, List.getD_append _ _ _ _ (by simpa)]
    · rw [if_neg (Nat.not_lt.mpr hge), List.getD_append_right _ _ _ _ (by simpa), List.length_reverse,
        Nat.testBit_bool_toNat]
      cases j - q.length <;> simp

/-- Bit `j` of the packed field is the bit at index `15 - j`; the bits past the end are zero (20_memory.md R51). -/
theorem testBit_packLeft {q : Bits} (hlen : q.length ≤ 16) (j : Nat) :
    (packLeft q).testBit j = (decide (j < 16) && q.getD (15 - j) false) := by
  rw [packLeft, Nat.testBit_mul_two_pow, testBit_bitsVal]
  by_cases hin : 16 - q.length ≤ j ∧ j < 16
  · obtain ⟨hlow, hhigh⟩ := hin
    have hidx : q.length - 1 - (j - (16 - q.length)) = 15 - j := by omega
    rw [decide_eq_true hlow, decide_eq_true hhigh, List.getD_reverse _ (by omega), hidx]
  · rcases not_and_or.mp hin with hlow | hhigh
    · simp [hlow, show q.length ≤ 15 - j by omega]
    · simp [hhigh, show q.length ≤ j - (16 - q.length) by omega]

/-! ## READ -/

theorem length_slice {q : Bits} {a cnt : Nat} (h : a + cnt ≤ q.length) : (slice q a cnt).length = cnt := by
  rw [slice, List.length_take, List.length_drop]
  omega

theorem getD_slice (q : Bits) (a cnt i : Nat) :
    (slice q a cnt).getD i false = if i < cnt then q.getD (a + i) false else false := by
  simp only [slice, List.getD_eq_getElem?_getD, List.getElem?_take, List.getElem?_drop]
  split <;> rfl

/-- READ past its bounds check (R195). -/
theorem exec_read_of_le {s : State} {sa : BufId} {off cnt : Nat} (hrun : s.halted = false)
    (hle : off + cnt ≤ (s.buf sa).length) :
    exec (.read sa off cnt) s = .next (respond .ok (BitVec.ofNat 32 (readData (s.buf sa) off cnt)) s) := by
  rw [exec_read, execRead, if_neg (Nat.not_lt.mpr hle), perform_ok _ _ _ _ hrun]

/-- READ of bits the stream does not have (R195). -/
theorem exec_read_of_gt {s : State} {sa : BufId} {off cnt : Nat} (hrun : s.halted = false)
    (hgt : (s.buf sa).length < off + cnt) :
    exec (.read sa off cnt) s = .next (raise .boundsError (encode (.read sa off cnt)) s) := by
  rw [exec_read, execRead, if_pos hgt, perform_error _ _ _ hrun]

/-- Settles O27: the answer is the packed sub-sequence. -/
theorem readCompletesInsideTheStream : Obligations.ReadCompletesInsideTheStream := by
  intro sa off cnt s hrun hcnt hle
  have hlen := length_slice hle
  refine ⟨_, exec_read_of_le hrun hle, fun j => ?_⟩
  rw [BitVec.getLsbD_ofNat, readData, testBit_packLeft (hlen.trans_le hcnt.2), getD_slice]
  by_cases hj : j < 16
  · simp [hj, show j < 32 by omega]
  · simp [hj]

/-- An answer READ gives with `OK` is that of bits the stream has. -/
theorem exec_read_ok {s t : State} {sa : BufId} {off cnt : Nat} {d : Word} (hrun : s.halted = false)
    (h : exec (.read sa off cnt) s = .next t) (ht : t.rsp = some ⟨.ok, d⟩) :
    off + cnt ≤ (s.buf sa).length ∧ d = BitVec.ofNat 32 (readData (s.buf sa) off cnt) := by
  by_cases hle : off + cnt ≤ (s.buf sa).length
  · cases (exec_read_of_le hrun hle).symm.trans h
    cases ht
    exact ⟨hle, rfl⟩
  · cases (exec_read_of_gt hrun (Nat.not_le.mp hle)).symm.trans h
    cases ht

/-- The word of PUSH with no field cut (R191). -/
theorem encode_push (sd : BufId) {lit : Bits} (hlit : fitsCount lit.length) :
    encode (.push sd lit) =
      BitVec.ofNat 32 (0x02000000 + sd.num * 2 ^ 22 + (lit.length - 1) * 2 ^ 16 + packLeft lit) := by
  have hpack := packLeft_lt hlit.2
  refine congrArg (BitVec.ofNat 32) ?_
  simp only [BufId.num_mod, Op.code]
  omega

/-- Settles O58: the low half of the data is the packed literal, so the word is that of the PUSH. -/
theorem readDataPushesBack : Obligations.ReadDataPushesBack := by
  intro sd sa off cnt s t d hrun hcnt h ht
  obtain ⟨hle, rfl⟩ := exec_read_ok hrun h ht
  have hlen := length_slice hle
  have hpack := packLeft_lt (hlen.trans_le hcnt.2)
  have hlow : readData (s.buf sa) off cnt % 2 ^ 32 % 2 ^ 16 = packLeft (slice (s.buf sa) off cnt) := by
    rw [Nat.mod_mod_of_dvd _ (by decide)]
    exact Nat.mod_eq_of_lt hpack
  have hlit : fitsCount (slice (s.buf sa) off cnt).length := by rwa [hlen]
  have hword := encode_push sd hlit
  rw [hlen] at hword
  rw [BitVec.toNat_ofNat, hlow, ← hword]
  exact decodeOfEncodeIsTheCommand _ (decide_eq_true hlit)

end Sys2Proof.Machine
end

section
/-! What a fault does, and what a halted block does (60_exceptions.md R211 to R214, R220). -/

namespace Sys2Proof.Machine

/-! ## The bookkeeping of a fault -/

theorem Status.fatal_of_recoverable {st : Status} (h : st.recoverable = true) : st.fatal = false := by
  cases st with
  | shapeMismatch | contractError | invariantViolation => cases h
  | _ => rfl

/-- A recoverable fault of a running block leaves it running (R211). -/
theorem raise_of_recoverable {f : Status} {s : State} (w : Word) (hrun : s.halted = false) (hf : f.recoverable = true) :
    raise f w s = { s with cause := f.code, fcmd := w, rsp := some ⟨f, 0⟩ } := by
  simp only [raise, respond, hrun, Status.fatal_of_recoverable hf, Bool.or_self]

/-- A fatal fault halts the block (R212). -/
theorem raise_of_fatal {f : Status} (w : Word) (s : State) (hf : f.fatal = true) :
    raise f w s = { s with cause := f.code, fcmd := w, halted := true, rsp := some ⟨f, 0⟩ } := by
  simp only [raise, respond, hf, Bool.or_true]

theorem Status.fatal_eq_decide_code (st : Status) : st.fatal = decide (st.code ∈ [8, 9, 10]) := by
  cases st <;> rfl

/-- Settles O9: the running block raises a recoverable fault. -/
theorem undecodableWordIsIllegalCommand : Obligations.UndecodableWordIsIllegalCommand := by
  intro s w rest e hin hrun hd
  have hrun' : (s.accept rest).halted = false := hrun
  have hillegal : illegalWord w (s.accept rest) = raise .illegalCommand w (s.accept rest) := if_neg (by simp [hrun])
  rw [step_of_undecodable hin hd, hillegal, raise_of_recoverable w hrun' rfl]
  rfl

/-- Settles O14: of the outcomes of the accepted word only a fault answers with such a status. -/
theorem faultBookkeepingIsExact : Obligations.FaultBookkeepingIsExact := by
  intro s t w rest r hin h hr hok hhalted
  cases step_wordOutcome hin h with
  | refused _ ht =>
    subst ht
    cases hr
    exact absurd rfl hhalted
  | faulted hrun f _ ht =>
    have hrun : s.halted = false := hrun
    subst ht
    cases hr
    simp only [raise, respond, hrun, Bool.false_or, Status.fatal_eq_decide_code]
  | done i u d _ _ ht =>
    subst ht
    cases hr
    exact absurd rfl hok

/-! ## The halted block -/

/-- A halted block refuses every command but RDSR (R213). -/
theorem exec_of_halted {i : Instr} {s : State} (hh : s.halted = true) (hop : i.op ≠ .rdsr) :
    exec i s = .next (refuseHalted s) := by
  obtain ⟨t, h⟩ := exec_total i s
  cases exec_outcomes h with
  | refused _ _ ht => rw [h, ht]
  | faulted hrun => simp [hh] at hrun
  | done u d hran => simp [hh, hop] at hran

/-- A halted block refuses every word but that of an RDSR, whether it decodes or not (R213). -/
theorem step_of_halted {s : State} {w : Word} {rest : List HostInput} (hin : s.input = .command w :: rest)
    (hh : s.halted = true) (hw : ∀ r, decode w ≠ .ok (.rdsr r)) : step s = .next (refuseHalted (s.accept rest)) := by
  cases hd : decode w with
  | error e =>
    rw [step_of_undecodable hin hd]
    exact congrArg _ (if_pos hh)
  | ok i =>
    have hop : i.op ≠ .rdsr := by
      cases i with
      | rdsr r => exact absurd hd (hw r)
      | _ => exact Op.noConfusion
    rw [step_of_decode hin hd]
    exact exec_of_halted hh hop

/-- No accepted word ends the halted state. -/
theorem WordOutcome.halted_of_halted {w : Word} {s t : State} (ho : WordOutcome w s t) (hh : s.halted = true) :
    t.halted = true := by
  obtain ⟨r, hr⟩ := ho.exists_rsp
  exact (ho.halted_iff hr).mpr (.inl hh)

/-- Settles O10: a word finds RDSR's answer or the refusal, and of the four steps only reset clears the latch. -/
theorem haltedBlockAnswersHaltedOnly : Obligations.HaltedBlockAnswersHaltedOnly := by
  refine ⟨fun s w rest hin hh => ⟨fun r hd => step_of_decode hin hd, step_of_halted hin hh⟩, fun s t h hh ht => ?_⟩
  cases stepOutcome h with
  | waiting _ hst =>
    subst hst
    simp [hh] at ht
  | word w rest _ ho => simp [ho.halted_of_halted hh] at ht
  | taken rest _ hst =>
    subst hst
    simp [hh] at ht
  | reset rest hin => exact ⟨rest, hin⟩

end Sys2Proof.Machine
end

section
/-! Where each fault is raised (60_exceptions.md R215 to R218, R224, R225): the checks of a command in the order of
R221, up to the one that fails. -/

namespace Sys2Proof.Machine

/-- The command ends in a fault: its bookkeeping and nothing else (R220). -/
def Raises (i : Instr) (f : Status) (s : State) : Prop := exec i s = .next (raise f (encode i) s)

theorem Raises.exec_of_recoverable {i : Instr} {f : Status} {s : State} (h : Raises i f s) (hrun : s.halted = false)
    (hf : f.recoverable = true) :
    exec i s = .next { s with cause := f.code, fcmd := encode i, rsp := some ⟨f, 0⟩ } :=
  h.trans (congrArg _ (raise_of_recoverable _ hrun hf))

theorem Raises.exec_of_fatal {i : Instr} {f : Status} {s : State} (h : Raises i f s) (hf : f.fatal = true) :
    exec i s = .next { s with cause := f.code, fcmd := encode i, halted := true, rsp := some ⟨f, 0⟩ } :=
  h.trans (congrArg _ (raise_of_fatal _ s hf))

/-- A running block raises the fault that the command's checks end in. -/
theorem raises_of_body {i : Instr} {f : Status} {s : State} {body : Except Status (State × Nat)}
    (hrun : s.halted = false) (hexec : exec i s = perform i s body) (hbody : body = .error f) : Raises i f s := by
  rw [Raises, hexec, hbody, perform_error i s f hrun]

/-- MMUL past its shape check (R104). -/
theorem exec_mmul_of_eq (sd sa sb : BufId) (m n p : Nat) (s : State) :
    exec (.mmul sd sa sb m n n p) s = perform (.mmul sd sa sb m n n p) s
      (if (s.buf sa).length ≠ m * n ∨ (s.buf sb).length ≠ n * p then .error .lengthError
      else if m * p > s.cap then .error .overflow
      else .ok (s.setBuf sd (gf2Product ⟨m, n, s.buf sa⟩ ⟨n, p, s.buf sb⟩).entries, m * p)) := by
  rw [exec_mmul, execMmul, gf2Mul_of_cols_eq_rows rfl]

section Checks

variable {s : State} {sa sb : BufId} (sd : BufId) (hrun : s.halted = false)

include hrun

/-! ## LengthError (R215) -/

theorem enc_raises_lengthError (h : (s.buf sa).length % 4 ≠ 0) : Raises (.enc sd sa) .lengthError s :=
  raises_of_body hrun rfl (if_pos h)

theorem dec_raises_lengthError (h : (s.buf sa).length % 7 ≠ 0) : Raises (.dec sd sa) .lengthError s :=
  raises_of_body hrun rfl (if_pos h)

theorem cmp_raises_lengthError (h : (s.buf sa).length ≠ (s.buf sb).length) : Raises (.cmp sa sb) .lengthError s :=
  raises_of_body hrun rfl (if_pos h)

theorem mmul_raises_lengthError {m n p : Nat} (h : (s.buf sa).length ≠ m * n ∨ (s.buf sb).length ≠ n * p) :
    Raises (.mmul sd sa sb m n n p) .lengthError s :=
  raises_of_body hrun (exec_mmul_of_eq ..) (if_pos h)

/-! ## RangeError (R216) -/

theorem noise_raises_rangeError {k : Nat} (h : k > (s.buf sa).length) : Raises (.noise sd sa k) .rangeError s :=
  raises_of_body hrun rfl (if_pos h)

theorem run_raises_rangeError {k : Nat} (hfit : runLength (s.buf sa).length ≤ s.cap)
    (h : k > runLength (s.buf sa).length) : Raises (.run sd sa k) .rangeError s :=
  raises_of_body hrun rfl ((if_neg (Nat.not_lt.mpr hfit)).trans (if_pos h))

/-! ## BoundsError (R218) -/

theorem read_raises_boundsError {off cnt : Nat} (h : off + cnt > (s.buf sa).length) :
    Raises (.read sa off cnt) .boundsError s :=
  exec_read_of_gt hrun h

theorem flip_raises_boundsError {idx : Nat} (h : idx ≥ (s.buf sa).length) : Raises (.flip sd sa idx) .boundsError s :=
  raises_of_body hrun rfl (if_pos h)

theorem trunc_raises_boundsError {n : Nat} (h : n > (s.buf sa).length) : Raises (.trunc sd sa n) .boundsError s :=
  raises_of_body hrun rfl (if_pos h)

/-! ## Overflow (R217) -/

theorem push_raises_overflow {lit : Bits} (h : (s.buf sd).length + lit.length > s.cap) :
    Raises (.push sd lit) .overflow s :=
  raises_of_body hrun rfl (if_pos h)

theorem pad_raises_overflow {multiple : Nat} (hm : 1 ≤ multiple)
    (h : (s.buf sa).length + padCount (s.buf sa).length multiple > s.cap) :
    Raises (.pad sd sa multiple) .overflow s :=
  raises_of_body hrun rfl ((if_neg (Nat.one_le_iff_ne_zero.mp hm)).trans (if_pos h))

theorem enc_raises_overflow (hlen : (s.buf sa).length % 4 = 0) (h : encodedLength (s.buf sa).length > s.cap) :
    Raises (.enc sd sa) .overflow s :=
  raises_of_body hrun rfl ((if_neg (not_not.mpr hlen)).trans (if_pos h))

theorem run_raises_overflow (k : Nat) (h : runLength (s.buf sa).length > s.cap) : Raises (.run sd sa k) .overflow s :=
  raises_of_body hrun rfl (if_pos h)

theorem mmul_raises_overflow {m n p : Nat} (ha : (s.buf sa).length = m * n) (hb : (s.buf sb).length = n * p)
    (h : m * p > s.cap) : Raises (.mmul sd sa sb m n n p) .overflow s :=
  raises_of_body hrun (exec_mmul_of_eq ..)
    ((if_neg (not_or.mpr ⟨not_not.mpr ha, not_not.mpr hb⟩)).trans (if_pos h))

/-! ## The fatal faults (R224, R225) -/

theorem mmul_raises_shapeMismatch (sa sb : BufId) (m p : Nat) {n k : Nat} (h : n ≠ k) :
    Raises (.mmul sd sa sb m n k p) .shapeMismatch s := by
  refine raises_of_body hrun rfl ?_
  have hshape : gf2Mul ⟨m, n, s.buf sa⟩ ⟨k, p, s.buf sb⟩ = none := if_neg h
  rw [hshape]

theorem encb_raises_contractError (h : (s.buf sa).length ≠ 4) : Raises (.encb sd sa) .contractError s :=
  raises_of_body hrun rfl (if_pos h)

theorem decb_raises_contractError (h : (s.buf sa).length ≠ 7) : Raises (.decb sd sa) .contractError s :=
  raises_of_body hrun rfl (if_pos h)

end Checks

/-! ## The obligations -/

/-- Settles O40: the length checks are the first of ENC, DEC and CMP, and MMUL's after equal inner dimensions. -/
theorem lengthErrorIsRaised : Obligations.LengthErrorIsRaised :=
  fun sd _ _ _ _ _ _ hrun =>
    ⟨fun h => (enc_raises_lengthError sd hrun h).exec_of_recoverable hrun rfl,
      fun h => (dec_raises_lengthError sd hrun h).exec_of_recoverable hrun rfl,
      fun h => (cmp_raises_lengthError hrun h).exec_of_recoverable hrun rfl,
      fun h => (mmul_raises_lengthError sd hrun h).exec_of_recoverable hrun rfl⟩

/-- Settles O41: RUN's range check is made against the length of the encoded message. -/
theorem rangeErrorIsRaised : Obligations.RangeErrorIsRaised := by
  intro sd sa k s hrun
  rw [length_encodeStream_padTo]
  exact ⟨fun h => (noise_raises_rangeError sd hrun h).exec_of_recoverable hrun rfl,
    fun hfit h => (run_raises_rangeError sd hrun hfit h).exec_of_recoverable hrun rfl⟩

/-- Settles O42: each of the three commands has this one check. -/
theorem boundsErrorIsRaised : Obligations.BoundsErrorIsRaised :=
  fun sd _ _ _ _ _ _ hrun =>
    ⟨fun h => (read_raises_boundsError hrun h).exec_of_recoverable hrun rfl,
      fun h => (flip_raises_boundsError sd hrun h).exec_of_recoverable hrun rfl,
      fun h => (trunc_raises_boundsError sd hrun h).exec_of_recoverable hrun rfl⟩

/-- Settles O43: the lengths the commands compare with the capacity are those of their results. -/
theorem overflowIsRaised : Obligations.OverflowIsRaised := by
  intro sd sa sb lit multiple m n p k s hrun
  rw [length_padTo, length_encodeStream_padTo]
  refine ⟨fun h => (push_raises_overflow sd hrun h).exec_of_recoverable hrun rfl,
    fun hm h => (pad_raises_overflow sd hrun hm h).exec_of_recoverable hrun rfl, fun hlen h => ?_,
    fun h => (run_raises_overflow sd hrun k h).exec_of_recoverable hrun rfl,
    fun ha hb h => (mmul_raises_overflow sd hrun ha hb h).exec_of_recoverable hrun rfl⟩
  rw [length_encodeStream _ hlen] at h
  exact (enc_raises_overflow sd hrun hlen h).exec_of_recoverable hrun rfl

/-- Settles O44: the shapes are checked before any buffer is looked at. -/
theorem shapeMismatchIsRaised : Obligations.ShapeMismatchIsRaised :=
  fun sd sa sb m _ _ p _ hrun h => (mmul_raises_shapeMismatch sd hrun sa sb m p h).exec_of_fatal rfl

/-- Settles O45: the block's length is the first check of both commands. -/
theorem contractErrorIsRaised : Obligations.ContractErrorIsRaised :=
  fun sd _ _ hrun =>
    ⟨fun h => (encb_raises_contractError sd hrun h).exec_of_fatal rfl,
      fun h => (decb_raises_contractError sd hrun h).exec_of_fatal rfl⟩

end Sys2Proof.Machine
end

section
/-! Which command can end with which status (60_exceptions.md R210, R228): a command's checks end in no fault outside
the table, and each entry of the table occurs at the least capacity. -/

namespace Sys2Proof.Machine

/-! ## No other status -/

/-- If a command's checks and effect end in a fault, it is one of the list. -/
def FaultsIn (l : List Status) : Except Status (State × Nat) → Prop
  | .error f => f ∈ l
  | .ok _ => True

section FaultsIn

variable {l : List Status} {body body' : Except Status (State × Nat)}

theorem FaultsIn.ok {x : State × Nat} : FaultsIn l (.ok x) := trivial

/-- One check: what it raises need be in the list only if it can fail. -/
theorem FaultsIn.check {c : Prop} [Decidable c] (h : c → FaultsIn l body) (h' : FaultsIn l body') :
    FaultsIn l (if c then body else body') := by
  split
  · next hc => exact h hc
  · exact h'

theorem status_of_perform {i : Instr} {s t : State} {r : Response} (hb : FaultsIn l body)
    (h : perform i s body = .next t) (hr : t.rsp = some r) : r.status = .ok ∨ r.status = .halted ∨ r.status ∈ l := by
  obtain ⟨_, rfl⟩ | ⟨_, f, rfl, rfl⟩ | ⟨_, u, d, _, rfl⟩ := perform_next h
  · cases hr
    exact .inr (.inl rfl)
  · cases hr
    exact .inr (.inr hb)
  · cases hr
    exact .inl rfl

end FaultsIn

/-- Every well-formed command but RDSR runs in the frame of R221, with checks that raise only what the table gives it:
PAD has no multiple 0 (R84), the tables fit (R115, R116), and the decoder's no-match branch is dead (R133). -/
theorem exec_faultsIn {i : Instr} {s : State} (hop : i.op ≠ .rdsr) (hwf : i.WellFormed) (hcap : s.CapOk) :
    ∃ body, exec i s = perform i s body ∧ FaultsIn (canFault i.op) body := by
  obtain ⟨hmin, -⟩ := hcap
  cases i with
  | rdsr idx => exact absurd rfl hop
  | clr sd => exact ⟨.ok (s.setBuf sd [], 0), rfl, .ok⟩
  | mov sd sa => exact ⟨.ok (s.setBuf sd (s.buf sa), (s.buf sa).length), rfl, .ok⟩
  | len sa => exact ⟨.ok (s, (s.buf sa).length), rfl, .ok⟩
  | push | read | trunc | flip | encb | cmp | noise =>
    exact ⟨_, rfl, .check (fun _ => List.mem_singleton_self _) .ok⟩
  | ldg | ldht => exact ⟨_, rfl, .check (fun hlarge => absurd hlarge (by omega)) .ok⟩
  | pad sd sa multiple =>
    obtain ⟨hpos, -⟩ : 1 ≤ multiple ∧ fitsImm multiple := of_decide_eq_true hwf
    exact ⟨_, rfl, .check (fun hzero => absurd hzero (by omega))
      (.check (fun _ => List.mem_singleton_self _) .ok)⟩
  | enc => exact ⟨_, rfl, .check (fun _ => .head _) (.check (fun _ => .tail _ (.head _)) .ok)⟩
  | mmul sd sa sb m n k p =>
    by_cases hnk : n = k
    · subst hnk
      exact ⟨_, exec_mmul_of_eq .., .check (fun _ => .head _) (.check (fun _ => .tail _ (.head _)) .ok)⟩
    · refine ⟨.error .shapeMismatch, ?_, .tail _ (.tail _ (.head _))⟩
      rw [exec_mmul, execMmul, gf2Mul, if_neg hnk]
  | decb sd sa =>
    obtain ⟨m, hm⟩ := Option.ne_none_iff_exists'.mp (decodeBlock_ne_none (s.buf sa))
    refine ⟨_, rfl, .check (fun _ => List.mem_singleton_self _) ?_⟩
    rw [hm]
    exact .ok
  | dec sd sa =>
    obtain ⟨q, hq⟩ := Option.ne_none_iff_exists'.mp (decodeStream_ne_none (s.buf sa))
    refine ⟨_, rfl, .check (fun _ => List.mem_singleton_self _) ?_⟩
    rw [hq]
    exact .ok
  | run sd sa k =>
    obtain ⟨r, hr⟩ := Option.ne_none_iff_exists'.mp
      (runPipeline_ne_none (s.buf sa) k (s.drawSet (runLength (s.buf sa).length) k))
    refine ⟨_, rfl, .check (fun _ => .tail _ (.head _)) (.check (fun _ => .head _) ?_)⟩
    rw [hr]
    exact .ok

/-- The statuses of a command: OK, a refusal (not of RDSR), or an entry of the table. -/
theorem exec_status_mem {i : Instr} {s t : State} {r : Response} (hwf : i.WellFormed) (hcap : s.CapOk)
    (h : exec i s = .next t) (hr : t.rsp = some r) :
    r.status = .ok ∨ (r.status = .halted ∧ i.op ≠ .rdsr) ∨ r.status ∈ canFault i.op := by
  by_cases hop : i.op = .rdsr
  · cases i with
    | rdsr idx =>
      cases h
      cases hr
      exact .inl rfl
    | _ => cases hop
  · obtain ⟨body, hexec, hbody⟩ := exec_faultsIn hop hwf hcap
    obtain hok | hhalted | hfault := status_of_perform hbody (hexec.symm.trans h) hr
    · exact .inl hok
    · exact .inr (.inl ⟨hhalted, hop⟩)
    · exact .inr (.inr hfault)

/-! ## Every entry occurs -/

/-- A running block of the least capacity, with `n` zeros in `S0` and the other buffers empty. -/
def leastBlock (n : Nat) : State := { State.reset with cap := 49, s0 := zeros n }

theorem halted_leastBlock (n : Nat) : (leastBlock n).halted = false := rfl

theorem inv_leastBlock {n : Nat} (hn : n ≤ 49) : (leastBlock n).Inv :=
  inv_setBuf .S0 (s := applyReset { State.reset with cap := 49 }) (inv_applyReset (by decide)) (by simpa)

/-- A command with the opcode ends with the status, in a state that meets the invariant. -/
def Occurs (op : Op) (st : Status) : Prop :=
  ∃ (i : Instr) (s t : State), i.op = op ∧ i.WellFormed ∧ s.Inv ∧ exec i s = .next t ∧ t.rsp = some ⟨st, 0⟩

theorem Raises.occurs {i : Instr} {f : Status} {n : Nat} (h : Raises i f (leastBlock n)) (hwf : i.WellFormed := by rfl)
    (hn : n ≤ 49 := by decide) : Occurs i.op f :=
  ⟨i, leastBlock n, _, rfl, hwf, inv_leastBlock hn, h, rfl⟩

section Table

open List (forall_mem_cons forall_mem_singleton)

/-- The entries of the table of R228. -/
theorem occurs_of_mem_canFault (op : Op) : ∀ st ∈ canFault op, Occurs op st := by
  have running := halted_leastBlock
  cases op with
  | clr | mov | len | rdsr | ldg | ldht => exact List.forall_mem_nil _
  | push =>
    exact forall_mem_singleton.mpr (push_raises_overflow .S0 (lit := [true]) (running 49) (by decide)).occurs
  | pad =>
    exact forall_mem_singleton.mpr
      (pad_raises_overflow .S0 (sa := .S0) (multiple := 28) (running 49) (by decide) (by decide)).occurs
  | read =>
    exact forall_mem_singleton.mpr
      (read_raises_boundsError (sa := .S0) (off := 0) (cnt := 1) (running 0) (by decide)).occurs
  | trunc =>
    exact forall_mem_singleton.mpr (trunc_raises_boundsError .S0 (sa := .S0) (n := 1) (running 0) (by decide)).occurs
  | flip =>
    exact forall_mem_singleton.mpr (flip_raises_boundsError .S0 (sa := .S0) (idx := 0) (running 0) (by decide)).occurs
  | encb =>
    exact forall_mem_singleton.mpr (encb_raises_contractError .S0 (sa := .S0) (running 0) (by decide)).occurs
  | decb =>
    exact forall_mem_singleton.mpr (decb_raises_contractError .S0 (sa := .S0) (running 0) (by decide)).occurs
  | dec =>
    exact forall_mem_singleton.mpr (dec_raises_lengthError .S0 (sa := .S0) (running 1) (by decide)).occurs
  | cmp =>
    exact forall_mem_singleton.mpr (cmp_raises_lengthError (sa := .S0) (sb := .S1) (running 1) (by decide)).occurs
  | noise =>
    exact forall_mem_singleton.mpr (noise_raises_rangeError .S0 (sa := .S0) (k := 1) (running 0) (by decide)).occurs
  | enc =>
    refine forall_mem_cons.mpr ⟨?_, forall_mem_singleton.mpr ?_⟩
    · exact (enc_raises_lengthError .S0 (sa := .S0) (running 1) (by decide)).occurs
    · exact (enc_raises_overflow .S0 (sa := .S0) (running 32) (by decide) (by decide)).occurs
  | run =>
    refine forall_mem_cons.mpr ⟨?_, forall_mem_singleton.mpr ?_⟩
    · exact (run_raises_rangeError .S0 (sa := .S0) (k := 1) (running 0) (by decide) (by decide)).occurs
    · exact (run_raises_overflow .S0 (sa := .S0) (running 49) 0 (by decide)).occurs
  | mmul =>
    refine forall_mem_cons.mpr ⟨?_, forall_mem_cons.mpr ⟨?_, forall_mem_singleton.mpr ?_⟩⟩
    · exact (mmul_raises_lengthError .S0 (sa := .S0) (sb := .S0) (m := 1) (n := 1) (p := 1) (running 0)
        (by decide)).occurs
    · exact (mmul_raises_overflow .S0 (sa := .S0) (sb := .S0) (m := 15) (n := 0) (p := 15) (running 0) (by decide)
        (by decide) (by decide)).occurs
    · exact (mmul_raises_shapeMismatch .S0 (running 0) .S0 .S0 1 1 (show 0 ≠ 1 by decide)).occurs

end Table

/-! ## Codes and ports -/

/-- Bit 3 of the code marks the fatal statuses and the refusal (R210). -/
theorem Status.code_getLsbD_three (st : Status) :
    st.code.getLsbD 3 = true ↔ st ∈ [.shapeMismatch, .contractError, .invariantViolation, .halted] := by
  cases st <;> decide

/-- The response port while a response is pending (30_encoding.md R74, R75). -/
theorem ports_of_rsp {s : State} {r : Response} (h : s.rsp = some r) :
    s.rspValid = true ∧ s.cmdReady = false ∧ s.rspStatus = some r.status.code ∧ s.rspData = some r.data := by
  simp [State.rspValid, State.cmdReady, State.rspStatus, State.rspData, h]

/-- Settles O18: the codes by definition, the table from both sides. -/
theorem statusesAreThoseOfTheTable : Obligations.StatusesAreThoseOfTheTable :=
  ⟨by decide, Status.code_getLsbD_three, fun _ _ => ports_of_rsp, fun _ _ _ _ => exec_status_mem,
    occurs_of_mem_canFault⟩

end Sys2Proof.Machine
end

section
/-! The printed words (30_encoding.md section 4, 95_test_vectors.md V12, V13), and the steps without a command
(10_state.md section 1). -/

namespace Sys2Proof.Machine

/-- Settles O1: most legal words are the decoder's own examples and the two unassigned ones stand in O5; the decoder is
run on the rest. -/
theorem wordsOfTheSpecDecodeAsPrinted : Obligations.WordsOfTheSpecDecodeAsPrinted := by
  obtain ⟨-, hzeros, hones⟩ := unassignedOpcodeIsAnsweredIllegal
  refine ⟨?clr, decode_push, ?pushZero, decode_read, decode_rdsr, decode_mmul, decode_ldht, decode_enc, decode_decb,
    decode_trunc, ?noise, decode_cmp, hzeros, hones, ?reservedField, ?pushTail, ?padZero, ?noRegister⟩
  all_goals decide

/-- Settles O12: the cases of `step` for these two inputs. -/
theorem betweenCommandsNothingChanges : Obligations.BetweenCommandsNothingChanges :=
  ⟨fun _ _ => step_of_takeResponse, fun _ => step_of_no_input⟩

end Sys2Proof.Machine
end
